-- ==== Sys2Proof/Word.lean ====
section
/-! DEFINITION. The units of the four storage spaces (20_memory R50): the 8-bit byte of a tape cell, a source item
and an output item. A Program word is an unsigned number of `W = PAW + 3` bits (30_encoding R75). `PAW` is a parameter of
the block, so a word is held as a `Nat`, and its width is a fact about it (`State.Inv`), not part of its type (log 7). -/

namespace Sys2Proof

/-- One tape cell, source byte or output byte: `CELL_BITS = 8` bits, fixed (00_scope R9). -/
abbrev Byte := BitVec 8

end Sys2Proof
end

