-- ==== Sys2Proof/Config.lean ====
section
/-! DEFINITION. The implementation parameters of 00_scope R9, as one record that every operation takes from
the state's read-only field `cfg` (log 1). The widths computed from them stand in Decode.lean. -/

namespace Sys2Proof

/-- `FLUSH_POLICY` (00_scope R9, 41_dispatch R125): whether output bytes reach the host as they are produced or in
one batch at the end of the run. OPEN in the spec. -/
inductive FlushPolicy where
  | incremental
  | batch
  deriving DecidableEq, Repr

/-- The parameters of 00_scope R9. `CELL_BITS` is fixed at 8; `STACK_DEPTH`, `PAW` and `DAW` are computed. -/
structure Config where
  /-- `TAPE_CELLS`: number of tape cells. -/
  tapeCells : Nat
  /-- `PROG_CAP`: number of words the Program memory holds. -/
  progCap : Nat
  /-- `SRC_CAP`: largest source buffer, in bytes. -/
  srcCap : Nat
  /-- `FLUSH_POLICY`. -/
  flushPolicy : FlushPolicy
  deriving DecidableEq, Repr

/-- `STACK_DEPTH = PROG_CAP` (00_scope R9, 10_state R30). -/
def Config.stackDepth (c : Config) : Nat := c.progCap

/-- The parameters of the machine that `State.reset` describes: `TAPE_CELLS` at the default of 00_scope R9
(UNVERIFIED numeral: log 23), `PROG_CAP` at the value of the spec's test vectors, and the two other OPEN parameters
at a value of the model's (DESIGN CHOICE, log 2). -/
def Config.standard : Config :=
  { tapeCells := 30000, progCap := 8191, srcCap := 65536, flushPolicy := .incremental }

end Sys2Proof
end

