-- ==== Sys2Proof/Syntax.lean ====
section
/-! DEFINITION. The instruction set as a tagged union, one constructor per row of spec/opcode_table.json
(00_scope R4, 30_encoding R70). -/

namespace Sys2Proof

/-- The seven instructions of 30_encoding R70, and the table's two rows that are no instruction of the VM: the
comment byte, which only the Compiler meets, and the reserved word, which only an uncompiled Program could hold. -/
inductive Instr where
  /-- `+`, op 0 (30_encoding R71, R76). -/
  | increment
  /-- `-`, op 1. -/
  | decrement
  /-- `>`, op 2. -/
  | moveRight
  /-- `<`, op 3. -/
  | moveLeft
  /-- `.`, op 4. -/
  | output
  /-- `[`, op 6, with the absolute Program index of its target (R77). The source byte carries no target: a decoded
  source byte holds the placeholder 0, and the compile rule R106 reads no target. -/
  | jumpIfZero (target : Nat)
  /-- `]`, op 5, with its target; as for `[`, a decoded source byte holds 0 and R107 reads no target. -/
  | jump (target : Nat)
  /-- Any source byte that is no command character (R73). -/
  | comment (byte : Byte)
  /-- The reserved word, op 7, with the bits `x` above its op field (R76, R79). -/
  | reservedWord (x : Nat)
  deriving DecidableEq, Repr

end Sys2Proof
end

