-- ==== Sys2Proof/WellFormed.lean ====
section
/-! DEFINITION. When a term of `Instr` is an instruction of a machine with `PAW`-bit targets, and when a sequence
of instructions is a Program (30_encoding R80). -/

namespace Sys2Proof

/-- The bytes of the seven command characters (30_encoding R71; ASCII, UNVERIFIED: log 17). -/
def commandBytes : List Byte := [0x2B#8, 0x2D#8, 0x3E#8, 0x3C#8, 0x2E#8, 0x5B#8, 0x5D#8]

/-- A source byte is a command character exactly when it is one of the seven (30_encoding R71, R73). -/
def isCommand (c : Byte) : Bool := commandBytes.contains c

/-- An instruction's fields fit its encoding: a target (and the reserved word's upper bits) fits `PAW` bits
(30_encoding R75, R77), and a comment's byte is no command character (R73). -/
def Instr.wf (paw : Nat) : Instr → Bool
  | .increment => true
  | .decrement => true
  | .moveRight => true
  | .moveLeft => true
  | .output => true
  | .jumpIfZero t => decide (t < 2 ^ paw)
  | .jump t => decide (t < 2 ^ paw)
  | .comment c => !isCommand c
  | .reservedWord x => decide (x < 2 ^ paw)

/-- Reads a sequence of instructions, the first at index `i`, as brackets (30_encoding R80). `opened` holds the
brackets still open, innermost first, each with its index and its target. A Jump at `q` must close the innermost
JumpIfZero, at `p` say, with `PROG[q].target = p` and `PROG[p].target = q + 1` (conditions 3 and 4). The result is
what is open at the end; `none` where a condition fails or an item is no instruction of a Program (condition 1). -/
def scanBrackets : List Instr → Nat → List (Nat × Nat) → Option (List (Nat × Nat))
  | [], _, opened => some opened
  | .increment :: rest, i, opened => scanBrackets rest (i + 1) opened
  | .decrement :: rest, i, opened => scanBrackets rest (i + 1) opened
  | .moveRight :: rest, i, opened => scanBrackets rest (i + 1) opened
  | .moveLeft :: rest, i, opened => scanBrackets rest (i + 1) opened
  | .output :: rest, i, opened => scanBrackets rest (i + 1) opened
  | .jumpIfZero t :: rest, i, opened => scanBrackets rest (i + 1) ((i, t) :: opened)
  | .jump t :: rest, i, opened =>
    match opened with
    | [] => none
    | (p, tp) :: outer => if t = p ∧ tp = i + 1 then scanBrackets rest (i + 1) outer else none
  | .comment _ :: _, _, _ => none
  | .reservedWord _ :: _, _, _ => none

/-- A sequence of instructions is a well-formed Program (30_encoding R80, conditions 1, 3 and 4; condition 2, the
zero targets of the non-jump words, is checked where words are decoded). -/
def wellFormedInstrs (is : List Instr) : Bool := decide (scanBrackets is 0 [] = some [])

end Sys2Proof
end

