-- ==== Sys2Proof/Decode.lean ====
section
/-! DEFINITION. The two encodings of 30_encoding: source bytes and Program words, each with its decoder (total,
rejecting by name) and its encoder, and the widths that the word format depends on. -/

namespace Sys2Proof

/-! ### Widths (00_scope R9) -/

/-- `ceil(log2(n))`, the number of bits that `n` different values need. -/
def ceilLog2 (n : Nat) : Nat := if n ≤ 1 then 0 else Nat.log2 (n - 1) + 1

/-- `PAW = ceil(log2(PROG_CAP + 1))`. -/
def Config.paw (c : Config) : Nat := ceilLog2 (c.progCap + 1)

/-- `DAW = ceil(log2(TAPE_CELLS))`. -/
def Config.daw (c : Config) : Nat := ceilLog2 c.tapeCells

/-- `W = PAW + 3`, the width of a Program word (30_encoding R75). -/
def Config.wordBits (c : Config) : Nat := c.paw + 3

/-! ### Source encoding (30_encoding R71 to R73) -/

/-- The instruction a source byte selects. Total: a byte that is no command character is a comment (R73). A bracket's
target is not in the byte; it reads as the placeholder 0. -/
def decodeSource (c : Byte) : Instr :=
  if c = 0x2B#8 then .increment
  else if c = 0x2D#8 then .decrement
  else if c = 0x3E#8 then .moveRight
  else if c = 0x3C#8 then .moveLeft
  else if c = 0x2E#8 then .output
  else if c = 0x5B#8 then .jumpIfZero 0
  else if c = 0x5D#8 then .jump 0
  else .comment c

/-- The source byte of an instruction, from the same table. The reserved word has none. -/
def encodeSource : Instr → Option Byte
  | .increment => some 0x2B#8
  | .decrement => some 0x2D#8
  | .moveRight => some 0x3E#8
  | .moveLeft => some 0x3C#8
  | .output => some 0x2E#8
  | .jumpIfZero _ => some 0x5B#8
  | .jump _ => some 0x5D#8
  | .comment c => some c
  | .reservedWord _ => none

/-- What of an instruction its source byte holds: everything but a bracket's target (30_encoding R77). -/
def Instr.sourceForm : Instr → Instr
  | .jumpIfZero _ => .jumpIfZero 0
  | .jump _ => .jump 0
  | .increment => .increment
  | .decrement => .decrement
  | .moveRight => .moveRight
  | .moveLeft => .moveLeft
  | .output => .output
  | .comment c => .comment c
  | .reservedWord x => .reservedWord x

/-! ### Program words (30_encoding R75 to R79) -/

/-- `word[2:0]`, the op field. -/
def opField (w : Nat) : Fin 8 := Fin.ofNat 8 w

/-- `word[W-1:3]`, the target field, zero-extended. -/
def targetField (paw : Nat) (w : Nat) : Nat := w / 8 % 2 ^ paw

/-- `{t[PAW-1:0], op[2:0]}` (40_compiler R100). -/
def makeWord (paw op t : Nat) : Nat := t % 2 ^ paw * 8 + op % 8

/-- The word with its target field replaced and its op field kept (40_compiler R107, `PROG[p].target <- t`). -/
def setTarget (paw : Nat) (w : Nat) (t : Nat) : Nat := makeWord paw (opField w).val t

/-- Why the decoder turns a Program word down, by name. -/
inductive DecodeReject where
  /-- A non-jump word (op 0 to 4) whose target field is not 0 (30_encoding R79). -/
  | nonZeroTarget (op : Nat)
  deriving DecidableEq, Repr

/-- A non-jump instruction, if its word's target field `t` is 0 (30_encoding R78, R79). -/
def plainWord (op t : Nat) (i : Instr) : Except DecodeReject Instr :=
  if t = 0 then .ok i else .error (.nonZeroTarget op)

/-- The instruction a Program word holds: each of the eight op values has an arm (41_dispatch R124). -/
def decodeWord (paw : Nat) (w : Nat) : Except DecodeReject Instr :=
  match opField w with
  | 0 => plainWord 0 (targetField paw w) .increment
  | 1 => plainWord 1 (targetField paw w) .decrement
  | 2 => plainWord 2 (targetField paw w) .moveRight
  | 3 => plainWord 3 (targetField paw w) .moveLeft
  | 4 => plainWord 4 (targetField paw w) .output
  | 5 => .ok (.jump (targetField paw w))
  | 6 => .ok (.jumpIfZero (targetField paw w))
  | 7 => .ok (.reservedWord (targetField paw w))

/-- The Program word of an instruction (30_encoding R76). A comment has none. -/
def encodeWord (paw : Nat) : Instr → Option Nat
  | .increment => some (makeWord paw 0 0)
  | .decrement => some (makeWord paw 1 0)
  | .moveRight => some (makeWord paw 2 0)
  | .moveLeft => some (makeWord paw 3 0)
  | .output => some (makeWord paw 4 0)
  | .jump t => some (makeWord paw 5 t)
  | .jumpIfZero t => some (makeWord paw 6 t)
  | .comment _ => none
  | .reservedWord x => some (makeWord paw 7 x)

/-- The instructions a sequence of words holds, if the decoder turns none down. -/
def decodeProgram (paw : Nat) : List Nat → Option (List Instr)
  | [] => some []
  | w :: ws =>
    match decodeWord paw w, decodeProgram paw ws with
    | .ok i, some is => some (i :: is)
    | _, _ => none

/-- A sequence of words is a well-formed Program (30_encoding R80, all four conditions). -/
def wellFormedWords (paw : Nat) (ws : List Nat) : Bool :=
  match decodeProgram paw ws with
  | some is => wellFormedInstrs is
  | none => false

/-- The host's reading of one row of spec/opcode_table.json: a row of 8 bits is a source byte (30_encoding R71), a
longer one a Program word at the table's `PAW = 13` (R76, log 22). -/
def decodeTableWord (nbits w : Nat) : Option Instr :=
  if nbits ≤ 8 then some (decodeSource (BitVec.ofNat 8 w))
  else (decodeWord 13 w).toOption

end Sys2Proof
end

