-- ==== Sys2Proof/Machine/State.lean ====
section
/-! DEFINITION. The state of the CORE as plain data (10_state R20), the reasons a step can stop, and the state at
power-on (70_reset_and_hazards R240). -/

namespace Sys2Proof.Machine

/-- The tape, as address and byte pairs in one canonical form: addresses strictly rising, no byte equal to what
an unlisted cell reads as (`Memory.wf`). -/
abbrev Memory := List Host.Cell

/-- What `STATUS.phase` can say (10_state R27). The value 7 is never taken, so it has no name (log 24). -/
inductive Phase where
  | idle
  | compiling
  | ready
  | running
  | done
  | compileError
  | runError
  deriving DecidableEq, Repr

/-- The three checked conditions of 00_scope R16. `STATUS.err` holds one of them, or NONE. -/
inductive CoreError where
  | unmatchedClose
  | unterminatedLoop
  | outOfBounds
  deriving DecidableEq, Repr

/-- What the host does at one step (41_dispatch R120, R126). `wait` is no operation: the core alone moves. -/
inductive HostOp where
  /-- No operation at this step. -/
  | wait
  /-- COMPILE(buffer) (R121). -/
  | compile (buffer : List Byte)
  /-- RUN (R122). -/
  | run
  /-- read STATUS (R120). -/
  | readStatus
  /-- output byte: bytes of `OUT` reach the host (R125). -/
  | outputByte
  deriving DecidableEq, Repr

/-- Everything the spec gives the machine to hold (10_state R20), the parameters of 00_scope R9, and the host's side
of the interface. `PLEN`, `SLEN` and `n` are the lengths of `prog`, `stk` and `src` (log 5). -/
structure State where
  /-- The parameters (00_scope R9), which no step writes (log 1). -/
  cfg : Config
  /-- `ip`: the index of the instruction being executed (10_state R23). -/
  ip : Nat
  /-- `dp`: the index of the current cell (10_state R22). -/
  dp : Nat
  /-- `tape` (20_memory R51). -/
  tape : Memory
  /-- `OUT`: the bytes the Output instructions appended, oldest first (10_state R32). -/
  out : List Byte
  /-- `PROG[0..PLEN-1]` (10_state R29). -/
  prog : List Nat
  /-- `STK`, top first (10_state R30). -/
  stk : List Nat
  /-- `SRC` (10_state R31). -/
  src : List Byte
  /-- `SPOS`: the compiler's position in the source (10_state R33). -/
  spos : Nat
  /-- `STATUS.phase` (10_state R27). -/
  phase : Phase
  /-- `STATUS.err`; NONE is `none` (10_state R28). -/
  err : Option CoreError
  /-- The model's own: what the host does at the coming steps, the next first (log 10). -/
  host : List HostOp
  /-- The model's own: how many bytes of `OUT` have reached the host in this run (log 11). -/
  delivered : Nat
  /-- The model's own: every byte that has reached the host since power-on, oldest first (log 11). -/
  received : List Byte
  /-- The model's own: the answer to the host's last read of STATUS, if it made one (log 12). -/
  statusRead : Option Byte
  deriving DecidableEq, Repr

/-- Accesses to storage that the spec says does not exist (log 15). Each is safe: the model stops where the spec
gives no behaviour, and no run of a compiled Program reaches one. -/
inductive Fault where
  /-- A tape access at or above `TAPE_CELLS` (20_memory R58). Raised by the four cell-reading instructions. Safe. -/
  | noSuchCell (addr : Nat)
  /-- A backpatch at or above `PLEN` (10_state R29). Raised by the compile rule of `]`. Safe. -/
  | noSuchProgramWord (addr : Nat)
  /-- A push on a bracket stack that already holds `STACK_DEPTH` entries (10_state R30). Raised by the compile rule
  of `[`. Safe. -/
  | noSuchStackEntry (index : Nat)
  /-- A compile step with `SPOS` beyond `n` (10_state R31). Raised by the Compiler's step. Safe. -/
  | noSuchSourceByte (index : Nat)
  deriving DecidableEq, Repr

/-- The cases to which the spec gives no meaning (00_scope R13), under the spec's own names, and two of the
model's. Each is safe: nothing can be proved of a run that meets one. -/
inductive Refusal where
  /-- An instruction without a meaning yet; raised by exec's arms only. Safe. -/
  | notModelled (mnemonic : String)
  /-- `refuse IllFormedProgram`: a reserved or illegal Program word, an `ip` beyond `PLEN`, or a comment met
  as a Program word (30_encoding R79, R80, 45_control R173). Raised by the dispatch step, the reserved word and the
  comment. Safe. -/
  | illFormedProgram
  /-- `refuse ProgramCapacity` (40_compiler R111). Raised by the compile rules of the seven command characters. Safe. -/
  | programCapacity
  /-- `refuse SourceCapacity` (40_compiler R112). Raised by COMPILE. Safe. -/
  | sourceCapacity
  /-- `refuse HostProtocol` (41_dispatch R120). Raised by a host operation in a phase that does not allow it. Safe. -/
  | hostProtocol
  /-- The model's own: `exec` asked for an instruction while neither component is active (60_exceptions R217). No step
  raises it (log 8). Safe. -/
  | coreAtRest
  deriving DecidableEq, Repr

/-- The machine with parameters `c` at power-on (70_reset_and_hazards R240): STATUS is IDLE and NONE, `PLEN` is 0 and
`OUT` is empty. The rest is unspecified there and takes the model's values: zero or empty (DESIGN CHOICE, log 3). -/
def State.powerOn (c : Config) : State :=
  { cfg := c, ip := 0, dp := 0, tape := [], out := [], prog := [], stk := [], src := [], spos := 0,
    phase := .idle, err := none, host := [], delivered := 0, received := [],
    statusRead := none }

/-- The machine right after reset, with the parameters of `Config.standard` (logs 2 and 3). -/
def State.reset : State := State.powerOn Config.standard

end Sys2Proof.Machine
end

