-- ==== Sys2Proof/Machine/Ops.lean ====
section
/-! DEFINITION. The named operations over the tape, the Program, the bracket stack and the status, in the words of
00_scope R12 and R13. Every meaning is written over these. -/

namespace Sys2Proof.Machine

/-- What one step, or one part of a step, answers. -/
abbrev Result := Host.Outcome State Fault Refusal

/-- The parts of one atomic step, in order (00_scope R14): a stop in the first is the stop of the whole, and none of
the step's writes is seen. -/
def andThen (r : Result) (k : State → Result) : Result :=
  match r with
  | .next s => k s
  | .fault f => .fault f
  | .refused w => .refused w

/-! ### The tape (20_memory) -/

/-- What a cell that the tape does not list reads as: 0, as RUN leaves every cell (20_memory R60, log 4). -/
def Memory.unlisted : Byte := 0

/-- The byte a tape holds at `a`. -/
def Memory.read : Memory → Nat → Byte
  | [], _ => Memory.unlisted
  | (b, v) :: m, a => if a = b then v else Memory.read m a

/-- The cell `(a, v)` in front of a tape, unless it says what an unlisted cell says. -/
def Memory.consCell (a : Nat) (v : Byte) (m : Memory) : Memory :=
  if v = Memory.unlisted then m else (a, v) :: m

/-- The tape with `v` at `a`, in canonical form if the tape was. -/
def Memory.write : Memory → Nat → Byte → Memory
  | [], a, v => Memory.consCell a v []
  | (b, w) :: m, a, v =>
    if a < b then Memory.consCell a v ((b, w) :: m)
    else if a = b then Memory.consCell a v m
    else (b, w) :: Memory.write m a v

/-- The tape's cells all lie at or above `lo`, rise strictly, and none reads as an unlisted cell. -/
def Memory.wfFrom : Nat → Memory → Bool
  | _, [] => true
  | lo, (a, v) :: m => decide (lo ≤ a) && decide (v ≠ Memory.unlisted) && Memory.wfFrom (a + 1) m

/-- The canonical form of a tape. -/
def Memory.wf (m : Memory) : Bool := Memory.wfFrom 0 m

/-- Every listed cell lies below `n`. -/
def Memory.below (n : Nat) (m : Memory) : Bool := m.all fun c => decide (c.1 < n)

/-- `MemRead(a, 1)` (00_scope R12): goes on with the byte of cell `a`. No cell exists at or above `TAPE_CELLS` (20_memory
R58). -/
def readCell (s : State) (a : Nat) (k : Byte → Result) : Result :=
  if a < s.cfg.tapeCells then k (Memory.read s.tape a) else .fault (.noSuchCell a)

/-- `MemWrite(a, 1, v)` (00_scope R12). -/
def writeCell (s : State) (a : Nat) (v : Byte) : Result :=
  if a < s.cfg.tapeCells then .next { s with tape := Memory.write s.tape a v } else .fault (.noSuchCell a)

/-! ### The pointers and the output stream -/

/-- `ip <- ip + 1`, the advance of the sequential instructions (10_state R23). -/
def advance (s : State) : State := { s with ip := s.ip + 1 }

/-- `ip <- t` (45_control R170). -/
def setIp (s : State) (t : Nat) : State := { s with ip := t }

/-- `dp <- a`; only the two moves call it (10_state R22). -/
def setDp (s : State) (a : Nat) : State := { s with dp := a }

/-- `Emit(v)`: appends one byte to `OUT` (00_scope R12). -/
def emitByte (s : State) (v : Byte) : State := { s with out := s.out ++ [v] }

/-! ### The Program, the bracket stack and the source -/

/-- `PLEN` (10_state R20). -/
def State.plen (s : State) : Nat := s.prog.length

/-- `SLEN` (10_state R30). -/
def State.slen (s : State) : Nat := s.stk.length

/-- `emit(op, t)` of 40_compiler R100: refuses when the Program memory is full (R111), else appends the word
`{t[PAW-1:0], op[2:0]}` at `PLEN`. -/
def emitWord (s : State) (op t : Nat) : Result :=
  if s.cfg.progCap ≤ s.plen then .refused .programCapacity
  else .next { s with prog := s.prog ++ [makeWord s.cfg.paw op t] }

/-- `push(p)` (00_scope R12). The stack has `STACK_DEPTH` entries (10_state R30). -/
def pushBracket (s : State) (p : Nat) : Result :=
  if s.slen < s.cfg.stackDepth then .next { s with stk := p :: s.stk } else .fault (.noSuchStackEntry s.slen)

/-- `PROG[p].target <- t` (40_compiler R107): replaces the target field of a word already emitted. -/
def backpatch (s : State) (p t : Nat) : Result :=
  match s.prog[p]? with
  | some w => .next { s with prog := s.prog.set p (setTarget s.cfg.paw w t) }
  | none => .fault (.noSuchProgramWord p)

/-- `SPOS <- SPOS + 1`, the end of a character step that raised no error (40_compiler R100). -/
def nextChar (s : State) : State := { s with spos := s.spos + 1 }

/-! ### Errors and phases -/

/-- The phase an error leaves the core in (60_exceptions R205, point 3). -/
def CoreError.phase : CoreError → Phase
  | .unmatchedClose => .compileError
  | .unterminatedLoop => .compileError
  | .outOfBounds => .runError

/-- Error entry, the one way an error is taken (60_exceptions R205): `s` is the state BEFORE the step, so none of the
step's own writes is made; STATUS gets the error and its phase. There is no handler, no saved register and no return
(R207): the core rests until the host issues COMPILE or RUN. -/
def raiseError (e : CoreError) (s : State) : Result := .next { s with err := some e, phase := e.phase }

/-- The phases in which the core takes no step (60_exceptions R217). -/
def Phase.atRest : Phase → Bool
  | .idle => true
  | .compiling => false
  | .ready => true
  | .running => false
  | .done => true
  | .compileError => true
  | .runError => true

/-- An instruction's two rules, by the component that is active (00_scope R3): its compile rule while COMPILING, its
execute rule while RUNNING. At rest neither component executes anything (60_exceptions R217, log 8). -/
def byPhase (s : State) (compile run : Result) : Result :=
  match s.phase with
  | .compiling => compile
  | .running => run
  | .idle => .refused .coreAtRest
  | .ready => .refused .coreAtRest
  | .done => .refused .coreAtRest
  | .compileError => .refused .coreAtRest
  | .runError => .refused .coreAtRest

end Sys2Proof.Machine
end

