-- ==== Sys2Proof/Machine/Operands.lean ====
section
/-! DEFINITION. The operand forms. There are two: the current cell, implicit in four instructions (20_memory
R54), and the jump target, which the decoder takes from the word (30_encoding R77, `targetField`). -/

namespace Sys2Proof.Machine

/-- The effective address of every tape access, `ea = dp` (20_memory R54): no displacement, no index, no
pre- or post-modification. -/
def cellAddress (s : State) : Nat := s.dp

/-- Goes on with the current cell, `tape[dp]`. -/
def withCell (s : State) (k : Byte → Result) : Result := readCell s (cellAddress s) k

/-- Reads the current cell, writes `f` of it back and advances `ip`: the one read-modify-write form (20_memory R55). -/
def updateCell (s : State) (f : Byte → Byte) : Result :=
  withCell s fun v => andThen (writeCell s (cellAddress s) (f v)) fun s' => .next (advance s')

end Sys2Proof.Machine
end

