-- ==== Sys2Proof/Machine/Flags.lean ====
section
/-! DEFINITION. The CORE has no flags (10_state R25): the one condition is the zero test of JumpIfZero. What it has
is the 8-bit STATUS register, whose fields and codes stand here (10_state R26 to R28). -/

namespace Sys2Proof.Machine

/-- The condition of JumpIfZero: only the value 0 counts as zero (45_control R171). -/
def isZeroCell (v : Byte) : Bool := v = 0

/-- The encoding of `STATUS.phase` (10_state R27). -/
def Phase.code : Phase → BitVec 3
  | .idle => 0
  | .compiling => 1
  | .ready => 2
  | .running => 3
  | .done => 4
  | .compileError => 5
  | .runError => 6

/-- The encoding of `STATUS.err` (10_state R28, 60_exceptions R200). -/
def errCode : Option CoreError → BitVec 2
  | none => 0
  | some .unmatchedClose => 1
  | some .unterminatedLoop => 2
  | some .outOfBounds => 3

/-- The STATUS register as the host reads it: `phase` in [2:0], `err` in [4:3], 0 in [7:5] (10_state R26). -/
def State.statusByte (s : State) : Byte := (0 : BitVec 3) ++ errCode s.err ++ s.phase.code

end Sys2Proof.Machine
end

