-- ==== Sys2Proof/Machine/Compiler.lean ====
section
/-! DEFINITION. The compile rules of 40_compiler: one character step for each kind of source byte (R101 to R108), and
the end-of-pass step (R109). -/

namespace Sys2Proof.Machine

/-- A character step that emits one word and moves to the next byte (40_compiler R100, R110). -/
def emitChar (s : State) (op t : Nat) : Result :=
  andThen (emitWord s op t) fun s' => .next (nextChar s')

/-- `+` (40_compiler R101). -/
def compileIncrement (s : State) : Result := emitChar s 0 0

/-- `-` (40_compiler R102). -/
def compileDecrement (s : State) : Result := emitChar s 1 0

/-- `>` (40_compiler R103). -/
def compileMoveRight (s : State) : Result := emitChar s 2 0

/-- `<` (40_compiler R104). -/
def compileMoveLeft (s : State) : Result := emitChar s 3 0

/-- `.` (40_compiler R105). -/
def compileOutput (s : State) : Result := emitChar s 4 0

/-- `[` (40_compiler R106): `push(PLEN); emit(6, 0)`, the placeholder target being 0 (log 18). The capacity test of
`emit` comes before the stack's: a full Program memory is refused (R111). -/
def compileOpen (s : State) : Result :=
  andThen (emitWord s 6 0) fun s' =>
    andThen (pushBracket s' s.plen) fun s'' => .next (nextChar s'')

/-- `]` (40_compiler R107): UnmatchedClose on an empty stack, with no write. Else pops `p`, emits the Jump to `p` at
`q = PLEN`, and backpatches the JumpIfZero at `p` with the new `PLEN`, which is `q + 1`. -/
def compileClose (s : State) : Result :=
  match s.stk with
  | [] => raiseError .unmatchedClose s
  | p :: rest =>
    andThen (emitWord { s with stk := rest } 5 p) fun s' =>
      andThen (backpatch s' p s'.plen) fun s'' => .next (nextChar s'')

/-- A comment byte (40_compiler R108): no write but `SPOS`. -/
def compileComment (s : State) : Result := .next (nextChar s)

/-- The end-of-pass step (40_compiler R109). -/
def endOfPass (s : State) : Result :=
  match s.stk with
  | [] => .next { s with phase := .ready }
  | _ :: _ => raiseError .unterminatedLoop s

end Sys2Proof.Machine
end

