-- ==== Sys2Proof/Machine/CellArith.lean ====
section
/-! DEFINITION. Increment and Decrement (42_cell_arith). The 8-bit sum wraps modulo 256 (R142); wrapping is no error
and sets nothing (R143). -/

namespace Sys2Proof.Machine

/-- The execute rule of Increment (42_cell_arith R140). -/
def runIncrement (s : State) : Result := updateCell s fun v => v + 1

/-- The execute rule of Decrement (42_cell_arith R141): `(v + 255) mod 256`. -/
def runDecrement (s : State) : Result := updateCell s fun v => v + 255

/-- Increment, `+`: R101 while COMPILING, R140 while RUNNING. -/
def execIncrement (s : State) : Result := byPhase s (compileIncrement s) (runIncrement s)

/-- Decrement, `-`: R102 while COMPILING, R141 while RUNNING. -/
def execDecrement (s : State) : Result := byPhase s (compileDecrement s) (runDecrement s)

end Sys2Proof.Machine
end

