-- ==== Sys2Proof/Machine/Control.lean ====
section
/-! DEFINITION. Jump and JumpIfZero (45_control). -/

namespace Sys2Proof.Machine

/-- The execute rule of Jump (45_control R170). Every target in `0..PLEN` is legal (R173); one above it cannot arise in
a compiled Program, and the dispatch step that would fetch there refuses (log 14). -/
def runJump (target : Nat) (s : State) : Result := .next (setIp s target)

/-- The execute rule of JumpIfZero (45_control R171). -/
def runJumpIfZero (target : Nat) (s : State) : Result :=
  withCell s fun v => if isZeroCell v then .next (setIp s target) else .next (advance s)

/-- Jump, `]`: R107 while COMPILING (which reads no target), R170 while RUNNING. -/
def execJump (target : Nat) (s : State) : Result := byPhase s (compileClose s) (runJump target s)

/-- JumpIfZero, `[`: R106 while COMPILING (which reads no target), R171 while RUNNING. -/
def execJumpIfZero (target : Nat) (s : State) : Result := byPhase s (compileOpen s) (runJumpIfZero target s)

end Sys2Proof.Machine
end

