-- ==== Sys2Proof/Machine/NonInstr.lean ====
section
/-! DEFINITION. The opcode table's two rows that are no VM instruction: the comment byte (40_compiler R108) and the
reserved Program word (30_encoding R79). -/

namespace Sys2Proof.Machine

/-- A comment byte: R108 while COMPILING. It emits no Program word and costs no VM step (30_encoding R81), so a VM that
met one would be running a Program no compile made: `refuse IllFormedProgram` (R80, log 9). -/
def execComment (s : State) : Result := byPhase s (compileComment s) (.refused .illFormedProgram)

/-- The reserved word: `refuse IllFormedProgram` (30_encoding R79, 41_dispatch R124). No source byte decodes to it. -/
def execReservedWord (_x : Nat) (_s : State) : Result := .refused .illFormedProgram

end Sys2Proof.Machine
end

