-- ==== Sys2Proof/Machine/Output.lean ====
section
/-! DEFINITION. Output (44_output), the only instruction that reaches outside the core. -/

namespace Sys2Proof.Machine

/-- The execute rule of Output (44_output R160): the byte is appended as it is, 0 included, and nothing waits. -/
def runOutput (s : State) : Result := withCell s fun v => .next (advance (emitByte s v))

/-- Output, `.`: R105 while COMPILING, R160 while RUNNING. -/
def execOutput (s : State) : Result := byPhase s (compileOutput s) (runOutput s)

end Sys2Proof.Machine
end

