-- ==== Sys2Proof/Machine/Pointer.lean ====
section
/-! DEFINITION. MoveRight and MoveLeft (43_pointer). The bound is checked before anything is written, at the move and
not at a later access (20_memory R56); `dp` never wraps and is never clamped (R152). -/

namespace Sys2Proof.Machine

/-- The execute rule of MoveRight (43_pointer R150). -/
def runMoveRight (s : State) : Result :=
  if s.cfg.tapeCells ≤ s.dp + 1 then raiseError .outOfBounds s else .next (advance (setDp s (s.dp + 1)))

/-- The execute rule of MoveLeft (43_pointer R151). -/
def runMoveLeft (s : State) : Result :=
  if s.dp = 0 then raiseError .outOfBounds s else .next (advance (setDp s (s.dp - 1)))

/-- MoveRight, `>`: R103 while COMPILING, R150 while RUNNING. -/
def execMoveRight (s : State) : Result := byPhase s (compileMoveRight s) (runMoveRight s)

/-- MoveLeft, `<`: R104 while COMPILING, R151 while RUNNING. -/
def execMoveLeft (s : State) : Result := byPhase s (compileMoveLeft s) (runMoveLeft s)

end Sys2Proof.Machine
end

