-- ==== Sys2Proof/Machine/Dispatch.lean ====
section
/-! DEFINITION. One arm per constructor of Instr (41_dispatch R124: no default arm). -/

namespace Sys2Proof.Machine

def exec (i : Instr) (s : State) : Host.Outcome State Fault Refusal :=
  match i with
  | .increment => Sys2Proof.Machine.execIncrement s
  | .decrement => Sys2Proof.Machine.execDecrement s
  | .moveRight => Sys2Proof.Machine.execMoveRight s
  | .moveLeft => Sys2Proof.Machine.execMoveLeft s
  | .output => Sys2Proof.Machine.execOutput s
  | .jumpIfZero target => Sys2Proof.Machine.execJumpIfZero target s
  | .jump target => Sys2Proof.Machine.execJump target s
  | .comment _ => Sys2Proof.Machine.execComment s
  | .reservedWord x => Sys2Proof.Machine.execReservedWord x s

end Sys2Proof.Machine
end

