-- ==== Sys2Proof/Machine/Host.lean ====
section
/-! DEFINITION. The four abstract operations of the host interface (41_dispatch R120 to R126). Each is one step; issued
in a phase that does not allow it, it is refused (`refuse HostProtocol`). -/

namespace Sys2Proof.Machine

/-- The phases in which RUN is allowed: those with a valid Program and no run in progress (41_dispatch R120, R122). -/
def Phase.allowsRun : Phase → Bool
  | .idle => false
  | .compiling => false
  | .ready => true
  | .running => false
  | .done => true
  | .compileError => false
  | .runError => true

/-- The phases in which the host may ask for output bytes (41_dispatch R120): RUNNING, and, under the `batch` policy,
after the run. -/
def Phase.allowsOutput (policy : FlushPolicy) : Phase → Bool
  | .idle => false
  | .compiling => false
  | .ready => false
  | .running => true
  | .done => policy = .batch
  | .compileError => false
  | .runError => policy = .batch

/-! ### Delivery of `OUT` (41_dispatch R125) -/

/-- The next `n` bytes of `OUT` reach the host, or as many as are left, in order (20_memory R61). No state of the core
changes. -/
def deliver (n : Nat) (s : State) : State :=
  { s with
    received := s.received ++ (s.out.drop s.delivered).take n
    delivered := s.delivered + ((s.out.drop s.delivered).take n).length }

/-- All that is left of `OUT` reaches the host. -/
def deliverRest (s : State) : State := deliver s.out.length s

/-- How much of `OUT` must reach the host no later than during the terminal step of a run: under `incremental` all of it,
since each byte is delivered "before or during later steps", and no later step comes; under `batch` none, since `OUT` is
delivered "once the run has ended" (41_dispatch R125; log 11). -/
def owedAtEnd (s : State) : Nat :=
  match s.cfg.flushPolicy with
  | .incremental => s.out.length
  | .batch => 0

/-- How much of `OUT` must reach the host no later than during the operation that leaves the phase: all of it after a run
that ended in DONE, so that no byte a `batch` still holds is lost (41_dispatch R125; the moment is the model's
choice, log 11). Of a run that ended in RUN_ERROR nothing is owed (60_exceptions R208, log 28). -/
def owedOnLeaving (s : State) : Nat :=
  match s.phase with
  | .done => s.out.length
  | .idle => 0
  | .compiling => 0
  | .ready => 0
  | .running => 0
  | .compileError => 0
  | .runError => 0

/-- What the host is still owed when one of its operations leaves the phase reaches it. -/
def settleOutput (s : State) : State := deliver (owedOnLeaving s) s

/-- output byte (41_dispatch R120, R125): under `incremental` the next byte of `OUT` reaches the host, if there is one;
under `batch` all of `OUT` does once the run has ended, and nothing before (log 27). -/
def deliverOutput (s : State) : Result :=
  if !s.phase.allowsOutput s.cfg.flushPolicy then .refused .hostProtocol
  else
    match s.cfg.flushPolicy with
    | .incremental => .next (deliver 1 s)
    | .batch => if s.phase = .running then .next s else .next (deliverRest s)

/-! ### Commands -/

/-- COMPILE(buffer) (41_dispatch R121, 40_compiler R100, R112): the first write of a compile. A buffer above `SRC_CAP` in
a phase that does not allow COMPILE meets two refusals, HostProtocol (R120) and SourceCapacity (R112), which the spec does
not rank: answering HostProtocol is the model's choice (DESIGN CHOICE, log 26). -/
def startCompile (buffer : List Byte) (s : State) : Result :=
  if !s.phase.atRest then .refused .hostProtocol
  else if s.cfg.srcCap < buffer.length then .refused .sourceCapacity
  else .next { settleOutput s with src := buffer, spos := 0, prog := [], stk := [], phase := .compiling, err := none }

/-- RUN (41_dispatch R122): a fresh VM on the current Program. Nothing of the new `OUT` is delivered yet. -/
def startRun (s : State) : Result :=
  if !s.phase.allowsRun then .refused .hostProtocol
  else
    .next { settleOutput s with
      ip := 0, dp := 0, tape := [], out := [], delivered := 0, phase := .running, err := none }

/-- read STATUS (41_dispatch R120): allowed in any phase, without side effect on the core. -/
def readStatus (s : State) : Result := .next { s with statusRead := some s.statusByte }

end Sys2Proof.Machine
end

