-- ==== Sys2Proof/Machine/Loop.lean ====
section
/-! DEFINITION. The Compiler's pass (40_compiler R100), the VM's fetch-decode-execute loop (41_dispatch R123), and the
order of the host's operations and the core's steps. -/

namespace Sys2Proof.Machine

/-- One step while COMPILING: a character step on `SRC[SPOS]`, or the end-of-pass step (40_compiler R100). -/
def compileStep (s : State) : Result :=
  match s.src[s.spos]? with
  | some c => exec (decodeSource c) s
  | none => if s.spos = s.src.length then endOfPass s else .fault (.noSuchSourceByte s.spos)

/-- The terminal step, which finds `ip = PLEN`: of the core's state it changes the phase alone (41_dispatch R128). What is
owed to the host at the end of a run reaches it during this step (R125). -/
def endOfRun (s : State) : Result := .next { deliver (owedAtEnd s) s with phase := .done }

/-- One step while RUNNING: fetch `PROG[ip]` as one word, decode and execute it, or end the run at `ip = PLEN`
(41_dispatch R123). An `ip` beyond `PLEN` and a word the decoder turns down are ill-formed Programs (log 14). -/
def dispatchStep (s : State) : Result :=
  if s.ip = s.plen then endOfRun s
  else
    match s.prog[s.ip]? with
    | none => .refused .illFormedProgram
    | some w =>
      match decodeWord s.cfg.paw w with
      | .ok i => exec i s
      | .error _ => .refused .illFormedProgram

/-- One step of the core alone. At rest it takes none and holds all its state (60_exceptions R217, log 20). -/
def coreStep (s : State) : Result :=
  match s.phase with
  | .compiling => compileStep s
  | .running => dispatchStep s
  | .idle => .next s
  | .ready => .next s
  | .done => .next s
  | .compileError => .next s
  | .runError => .next s

/-- One step of the host and the core: an operation of the host is a step of its own (41_dispatch R122, log 10), and
the core moves where the host issues none. -/
def hostStep (s : State) : Result :=
  match s.host with
  | [] => coreStep s
  | op :: later =>
    match op with
    | .wait => coreStep { s with host := later }
    | .compile buffer => startCompile buffer { s with host := later }
    | .run => startRun { s with host := later }
    | .readStatus => readStatus { s with host := later }
    | .outputByte => deliverOutput { s with host := later }

/-- `s` about to compile the one source byte `w`. -/
def placeSourceByte (w : Nat) (s : State) : State :=
  { s with host := [], src := [BitVec.ofNat 8 w], spos := 0, phase := .compiling, err := none }

/-- `s` about to execute the one Program word `w`. -/
def placeProgramWord (w : Nat) (s : State) : State :=
  { s with host := [], prog := [w % 2 ^ s.cfg.wordBits], ip := 0, phase := .running, err := none }

end Sys2Proof.Machine
end

