-- ==== Sys2Proof/Machine/Step.lean ====
section
/-! DEFINITION. The step of the whole machine, and the placing of one instruction where the next step fetches. -/

namespace Sys2Proof.Machine

/-- One step (00_scope R14): one host operation, or one step of the active component. -/
def step (s : State) : Host.Outcome State Fault Refusal := hostStep s

/-- `s` with one instruction where the next step fetches it: a table row of 8 bits is a source byte, which the
Compiler fetches at `SRC[SPOS]`; a longer row is a Program word, which the VM fetches at `PROG[ip]` (logs 13 and 22). -/
def State.withFetchWord (s : State) (nbits w : Nat) : State :=
  if nbits ≤ 8 then placeSourceByte w s else placeProgramWord w s

end Sys2Proof.Machine
end

