-- ==== Sys2Proof/Safety.lean ====
section
/-! DEFINITION. What counts as a good state and a good outcome, and the views of a state, in which claims are stated. -/

namespace Sys2Proof.Machine

/-! ### Phases -/

/-- The phases in which the Program is valid (10_state R27, last column). -/
def Phase.hasProgram : Phase → Bool
  | .idle => false
  | .compiling => false
  | .ready => true
  | .running => true
  | .done => true
  | .compileError => false
  | .runError => true

/-- What `STATUS.err` may hold beside a phase (10_state R28). -/
def Phase.allowsErr (e : Option CoreError) : Phase → Bool
  | .idle => decide (e = none)
  | .compiling => decide (e = none)
  | .ready => decide (e = none)
  | .running => decide (e = none)
  | .done => decide (e = none)
  | .compileError => decide (e = some .unmatchedClose ∨ e = some .unterminatedLoop)
  | .runError => decide (e = some .outOfBounds)

/-- What `ip` may hold beside a phase (10_state R23, 70_reset_and_hazards R241). -/
def State.ipInPlace (s : State) : Prop :=
  match s.phase with
  | .running => s.ip ≤ s.plen
  | .done => s.ip = s.plen
  | .runError => s.ip < s.plen
  | .idle => True
  | .compiling => True
  | .ready => True
  | .compileError => True

/-! ### The Program and the source -/

/-- The instruction at index `i` of a sequence of words, if there is a word and the decoder takes it. -/
def instrAt (paw : Nat) (ws : List Nat) (i : Nat) : Option Instr :=
  match ws[i]? with
  | some w => (decodeWord paw w).toOption
  | none => none

/-- The Program against the source read so far: one word per command character, in order, and none for a comment
(40_compiler R110). While the pass goes on, the open brackets are those on the stack, each with the placeholder target
(R106); afterwards the Program is well-formed (R114) and the stack is empty (10_state R30). -/
def State.programTracksSource (s : State) : Prop :=
  ∃ is, decodeProgram s.cfg.paw s.prog = some is
    ∧ is.map Instr.sourceForm = ((s.src.take s.spos).filter isCommand).map decodeSource
    ∧ (s.phase = .compiling → scanBrackets is 0 [] = some (s.stk.map fun p => (p, 0)))
    ∧ (s.phase.hasProgram = true → scanBrackets is 0 [] = some [] ∧ s.stk = [] ∧ s.spos = s.src.length)

/-- The invariant of the machine: what the spec says of every state that a run can reach. -/
structure State.Inv (s : State) : Prop where
  /-- The tape has a cell, so that `dp = 0` is in range (20_memory R58). -/
  someCell : 0 < s.cfg.tapeCells
  /-- `0 ≤ dp < TAPE_CELLS` (10_state R22). -/
  dpInRange : s.dp < s.cfg.tapeCells
  /-- The tape is in its canonical form, and lists no cell that does not exist. -/
  tapeCanonical : Memory.wf s.tape = true
  tapeInRange : Memory.below s.cfg.tapeCells s.tape = true
  /-- The Program fits its memory (10_state R29), and each word its width (30_encoding R75). -/
  progFits : s.plen ≤ s.cfg.progCap
  wordsFit : ∀ w ∈ s.prog, w < 2 ^ s.cfg.wordBits
  /-- The source fits its buffer (40_compiler R112), and `SPOS` the source. -/
  srcFits : s.src.length ≤ s.cfg.srcCap
  sposInRange : s.spos ≤ s.src.length
  /-- STATUS is one of the pairs of 10_state R28. -/
  errMatches : s.phase.allowsErr s.err = true
  ipPlaced : s.ipInPlace
  program : s.programTracksSource
  /-- No byte reaches the host that `OUT` does not hold. -/
  deliveredFits : s.delivered ≤ s.out.length
  /-- What has been delivered of `OUT` is what the host received last (20_memory R61). -/
  receivedInOrder : s.out.take s.delivered <:+ s.received
  /-- An `incremental` run that ended in DONE has delivered all of `OUT` (41_dispatch R125). -/
  outputComplete : s.phase = .done → s.cfg.flushPolicy = .incremental → s.delivered = s.out.length

/-! ### Outcomes -/

/-- An outcome in which the machine goes on, or stops at a limit that the spec names: a capacity (40_compiler
R111, R112) or a host outside the interface (41_dispatch R120). -/
def withinContract : Result → Prop
  | .next _ => True
  | .refused r => r = .programCapacity ∨ r = .sourceCapacity ∨ r = .hostProtocol
  | .fault _ => False

/-- No operation of the host at the next step: the core alone moves. -/
def State.hostWaits (s : State) : Prop := s.host = [] ∨ s.host.head? = some .wait

/-- The state once the host has let the step pass. -/
def State.afterWait (s : State) : State := { s with host := s.host.tail }

/-- `k` steps, stopping at the first fault or refusal. It is `Host.Core.run` of `Sys2Proof.core`, over the model's own
names (`core_run_eq_steps`). -/
def steps : Nat → State → Result
  | 0, s => .next s
  | k + 1, s => andThen (step s) (steps k)

/-! ### Views of a state -/

/-- What a run is made of (41_dispatch R127): the VM's state, its Program and its parameters, and STATUS. -/
structure RunView where
  cfg : Config
  ip : Nat
  dp : Nat
  tape : Memory
  out : List Byte
  prog : List Nat
  phase : Phase
  err : Option CoreError
  deriving DecidableEq, Repr

/-- The run in a state. -/
def State.runView (s : State) : RunView :=
  { cfg := s.cfg, ip := s.ip, dp := s.dp, tape := s.tape, out := s.out, prog := s.prog, phase := s.phase, err := s.err }

/-- The run in an outcome. -/
def runViewOf : Result → Host.Outcome RunView Fault Refusal
  | .next s => .next s.runView
  | .fault f => .fault f
  | .refused r => .refused r

/-- What a compile is made of (40_compiler R100): the parameters, the source, the Compiler's state and STATUS. -/
structure CompileView where
  cfg : Config
  prog : List Nat
  stk : List Nat
  src : List Byte
  spos : Nat
  phase : Phase
  err : Option CoreError
  deriving DecidableEq, Repr

/-- The compile in a state. -/
def State.compileView (s : State) : CompileView :=
  { cfg := s.cfg, prog := s.prog, stk := s.stk, src := s.src, spos := s.spos, phase := s.phase, err := s.err }

/-- The compile in an outcome. -/
def compileViewOf : Result → Host.Outcome CompileView Fault Refusal
  | .next s => .next s.compileView
  | .fault f => .fault f
  | .refused r => .refused r

/-- The same machine with another `TAPE_CELLS` (43_pointer R153). -/
def State.withTapeCells (n : Nat) (s : State) : State := { s with cfg := { s.cfg with tapeCells := n } }

/-- What no execute rule writes: the parameters, the Program, the Compiler's state and the host's side (20_memory
R63, 41_dispatch R127). -/
def State.sameBesideVm (s t : State) : Prop :=
  t.cfg = s.cfg ∧ t.prog = s.prog ∧ t.stk = s.stk ∧ t.src = s.src ∧ t.spos = s.spos
    ∧ t.host = s.host ∧ t.delivered = s.delivered ∧ t.received = s.received ∧ t.statusRead = s.statusRead

/-- What no compile rule writes: the parameters, the VM's state, the source and the host's side (40_compiler R113,
10_state R31). -/
def State.sameBesideCompiler (s t : State) : Prop :=
  t.cfg = s.cfg ∧ t.ip = s.ip ∧ t.dp = s.dp ∧ t.tape = s.tape ∧ t.out = s.out ∧ t.src = s.src
    ∧ t.host = s.host ∧ t.delivered = s.delivered ∧ t.received = s.received ∧ t.statusRead = s.statusRead

/-- STATUS is unchanged. -/
def State.sameStatus (s t : State) : Prop := t.phase = s.phase ∧ t.err = s.err

/-- Every cell reads as before. -/
def State.sameCells (s t : State) : Prop := ∀ a, Memory.read t.tape a = Memory.read s.tape a

/-! ### Sources -/

/-- No prefix has more `]` than `[` (40_compiler R119). -/
def noStrayClose (buffer : List Byte) : Prop :=
  ∀ k, (buffer.take k).count 0x5D#8 ≤ (buffer.take k).count 0x5B#8

/-- Balanced brackets (40_compiler R119). -/
def balanced (buffer : List Byte) : Prop :=
  noStrayClose buffer ∧ buffer.count 0x5D#8 = buffer.count 0x5B#8

end Sys2Proof.Machine
end

