-- ==== Sys2Proof/Certificates/Slice0/Obligations.lean ====
section
/-! DEFINITION. The statements for the provers. Each docstring names the rule of spec/ it formalises. -/

open Sys2Proof Sys2Proof.Machine

/-! ### Encoding (30_encoding) -/

/-- 30_encoding R71 and R73: the seven command bytes decode to their instructions, and every other byte is a comment. -/
def Obligations.SourceBytesDecodeAsTabled : Prop :=
  decodeSource 0b00101011#8 = .increment ∧ decodeSource 0b00101101#8 = .decrement
    ∧ decodeSource 0b00111110#8 = .moveRight ∧ decodeSource 0b00111100#8 = .moveLeft
    ∧ decodeSource 0b00101110#8 = .output ∧ decodeSource 0b01011011#8 = .jumpIfZero 0
    ∧ decodeSource 0b01011101#8 = .jump 0
    ∧ ∀ c, c ∉ commandBytes → decodeSource c = .comment c

/-- 30_encoding R83, the worked example at `PAW = 13`, and the reserved word of R76, written out bit by bit. -/
def Obligations.SampleWordsDecodeAsWrittenOut : Prop :=
  decodeWord 13 0b0000000000000000 = .ok .increment ∧ decodeWord 13 0b0000000000100110 = .ok (.jumpIfZero 4)
    ∧ decodeWord 13 0b0000000000000001 = .ok .decrement ∧ decodeWord 13 0b0000000000001101 = .ok (.jump 1)
    ∧ decodeWord 13 0b0000000000000010 = .ok .moveRight ∧ decodeWord 13 0b0000000000000011 = .ok .moveLeft
    ∧ decodeWord 13 0b0000000000000100 = .ok .output ∧ decodeWord 13 0b0000000000000111 = .ok (.reservedWord 0)

/-- 30_encoding R75 to R77: for every `PAW`, every well-formed instruction that has a Program word is read back from
that word, with its target at every value the field admits, and the word fits `PAW + 3` bits. -/
def Obligations.DecodeOfEncodedWordGivesInstruction : Prop :=
  ∀ paw i w, Instr.wf paw i = true → encodeWord paw i = some w →
    w < 2 ^ (paw + 3) ∧ decodeWord paw w = .ok i

/-- 30_encoding R75 to R79: a word of `PAW + 3` bits that the decoder takes is the encoding of what it reads, which is
well-formed; so no two words are one instruction. -/
def Obligations.EncodeOfDecodedWordGivesWord : Prop :=
  ∀ paw i w, w < 2 ^ (paw + 3) → decodeWord paw w = .ok i →
    encodeWord paw i = some w ∧ Instr.wf paw i = true

/-- 30_encoding R71 to R73: every source byte is the encoding of what it decodes to, and an instruction is read back
from its byte but for a bracket's target, which the byte does not hold. -/
def Obligations.SourceEncodingRoundTrips : Prop :=
  (∀ c, encodeSource (decodeSource c) = some c)
    ∧ ∀ paw i c, Instr.wf paw i = true → encodeSource i = some c → decodeSource c = i.sourceForm

/-- 30_encoding R79: a non-jump op with a non-zero target is turned down by name, and the VM refuses that word and
the reserved word `op = 7` as ill-formed. -/
def Obligations.IllegalWordsAreRefused : Prop :=
  (∀ paw op t, op ≤ 4 → 0 < t → t < 2 ^ paw → decodeWord paw (t * 8 + op) = .error (.nonZeroTarget op))
    ∧ ∀ s w, s.hostWaits → s.phase = .running → s.prog[s.ip]? = some w →
        (w % 8 = 7 ∨ (w % 8 ≤ 4 ∧ targetField s.cfg.paw w ≠ 0)) → step s = .refused .illFormedProgram

/-! ### The step (41_dispatch, 40_compiler R100) -/

/-- 41_dispatch R123: while RUNNING, a step at a word that decodes to `i` is the execution of `i`. The step adds only
that the host lets it pass. -/
def Obligations.RunningStepExecutesFetchedWord : Prop :=
  ∀ s i w, s.hostWaits → s.phase = .running → s.prog[s.ip]? = some w → decodeWord s.cfg.paw w = .ok i →
    step s = exec i s.afterWait

/-- 40_compiler R100: while COMPILING with `SPOS < n`, a step is the compile rule of the instruction that the byte
`SRC[SPOS]` selects. -/
def Obligations.CompilingStepAppliesSelectedRule : Prop :=
  ∀ s c, s.hostWaits → s.phase = .compiling → s.src[s.spos]? = some c → step s = exec (decodeSource c) s.afterWait

/-- 41_dispatch R128: a dispatch step that finds `ip = PLEN` sets the phase to DONE and changes nothing else: every piece of
state of the core (10_state R20) but the phase is as it was. `delivered` and `received` are no state of the core: they are
the model's record of what the host has (log 11), and `CompletedRunsDeliverTheirOutput` says what becomes of them. -/
def Obligations.TerminalStepOnlySetsDone : Prop :=
  ∀ s : State, s.host = [] → s.phase = .running → s.ip = s.plen →
    ∃ t, step s = .next t ∧ t = { s with phase := .done, delivered := t.delivered, received := t.received }

/-- 60_exceptions R217: between host operations the core rests and holds all its state. -/
def Obligations.RestingCoreHoldsItsState : Prop :=
  ∀ s : State, s.phase.atRest = true → s.hostWaits → step s = .next s.afterWait

/-! ### Execute rules -/

/-- 42_cell_arith R140: Increment adds one to the current cell modulo 256 and advances `ip`; every other cell and
every other piece of state is unchanged, and 255 becoming 0 raises nothing. -/
def Obligations.IncrementAddsOneModulo256 : Prop :=
  (decodeSource 0x2B#8 = .increment ∧ ∀ paw, decodeWord paw 0 = .ok .increment)
    ∧ ∀ s : State, s.phase = .running → s.dp < s.cfg.tapeCells → Memory.wf s.tape = true →
      ∃ t, exec .increment s = .next t
        ∧ (Memory.read t.tape s.dp).toNat = ((Memory.read s.tape s.dp).toNat + 1) % 256
        ∧ (∀ a, a ≠ s.dp → Memory.read t.tape a = Memory.read s.tape a)
        ∧ t = { s with tape := t.tape, ip := s.ip + 1 }

/-- 42_cell_arith R141: Decrement subtracts one from the current cell modulo 256 and advances `ip`. -/
def Obligations.DecrementSubtractsOneModulo256 : Prop :=
  (decodeSource 0x2D#8 = .decrement ∧ ∀ paw, decodeWord paw 1 = .ok .decrement)
    ∧ ∀ s : State, s.phase = .running → s.dp < s.cfg.tapeCells → Memory.wf s.tape = true →
      ∃ t, exec .decrement s = .next t
        ∧ (Memory.read t.tape s.dp).toNat = ((Memory.read s.tape s.dp).toNat + 255) % 256
        ∧ (∀ a, a ≠ s.dp → Memory.read t.tape a = Memory.read s.tape a)
        ∧ t = { s with tape := t.tape, ip := s.ip + 1 }

/-- 43_pointer R150: MoveRight raises OutOfBounds exactly at the last cell, with nothing written, and otherwise adds
one to `dp` and to `ip`. (The values of `dp` and `ip` after the fault are the spec's choice, not the document's: log 16.) -/
def Obligations.MoveRightMovesOrFaults : Prop :=
  (decodeSource 0x3E#8 = .moveRight ∧ ∀ paw, decodeWord paw 2 = .ok .moveRight)
    ∧ (∀ s : State, s.phase = .running → s.dp + 1 < s.cfg.tapeCells →
        exec .moveRight s = .next { s with dp := s.dp + 1, ip := s.ip + 1 })
    ∧ ∀ s : State, s.phase = .running → s.cfg.tapeCells ≤ s.dp + 1 →
        exec .moveRight s = .next { s with phase := .runError, err := some .outOfBounds }

/-- 43_pointer R151: MoveLeft raises OutOfBounds exactly at cell 0, with nothing written, and otherwise takes one from
`dp` and adds one to `ip`. -/
def Obligations.MoveLeftMovesOrFaults : Prop :=
  (decodeSource 0x3C#8 = .moveLeft ∧ ∀ paw, decodeWord paw 3 = .ok .moveLeft)
    ∧ (∀ s : State, s.phase = .running → 0 < s.dp →
        exec .moveLeft s = .next { s with dp := s.dp - 1, ip := s.ip + 1 })
    ∧ ∀ s : State, s.phase = .running → s.dp = 0 →
        exec .moveLeft s = .next { s with phase := .runError, err := some .outOfBounds }

/-- 44_output R160: Output appends the current cell, as it is, to `OUT` and advances `ip`. -/
def Obligations.OutputAppendsCurrentCell : Prop :=
  (decodeSource 0x2E#8 = .output ∧ ∀ paw, decodeWord paw 4 = .ok .output)
    ∧ ∀ s : State, s.phase = .running → s.dp < s.cfg.tapeCells →
      exec .output s = .next { s with out := s.out ++ [Memory.read s.tape s.dp], ip := s.ip + 1 }

/-- 45_control R170: Jump writes its target to `ip` and nothing else. -/
def Obligations.JumpWritesItsTarget : Prop :=
  (decodeSource 0x5D#8 = .jump 0 ∧ ∀ paw t, t < 2 ^ paw → decodeWord paw (t * 8 + 5) = .ok (.jump t))
    ∧ ∀ s t, s.phase = .running → exec (.jump t) s = .next { s with ip := t }

/-- 45_control R171: JumpIfZero writes its target to `ip` when the current cell is 0, and `ip + 1` for every other
value; nothing else changes. -/
def Obligations.JumpIfZeroTestsCurrentCell : Prop :=
  (decodeSource 0x5B#8 = .jumpIfZero 0 ∧ ∀ paw t, t < 2 ^ paw → decodeWord paw (t * 8 + 6) = .ok (.jumpIfZero t))
    ∧ ∀ s t, s.phase = .running → s.dp < s.cfg.tapeCells →
      exec (.jumpIfZero t) s =
        .next { s with ip := if Memory.read s.tape s.dp = 0 then t else s.ip + 1 }

/-- 30_encoding R79: the reserved word is refused in every state. -/
def Obligations.ReservedWordIsRefused : Prop :=
  ∀ s x, exec (.reservedWord x) s = .refused .illFormedProgram

/-- 60_exceptions R202: while RUNNING, an execute rule raises OutOfBounds exactly when it is a MoveRight at the last cell
or a MoveLeft at cell 0, and no execute rule raises another error: without OutOfBounds, STATUS is as it was. -/
def Obligations.OnlyEdgeMovesRaiseRuntimeErrors : Prop :=
  ∀ i s t, s.phase = .running → exec i s = .next t →
    ((t.phase = .runError ∧ t.err = some .outOfBounds) ↔
        (i = .moveRight ∧ s.cfg.tapeCells ≤ s.dp + 1 ∨ i = .moveLeft ∧ s.dp = 0))
      ∧ (¬ (t.phase = .runError ∧ t.err = some .outOfBounds) → s.sameStatus t)

/-- 60_exceptions R205: a step of the core that raises an error makes none of its own writes: it sets `STATUS.err` and the
phase that goes with the error, and nothing else. -/
def Obligations.ErrorEntryChangesStatusAlone : Prop :=
  ∀ s t, s.host = [] → s.phase.atRest = false → step s = .next t → (t.phase = .compileError ∨ t.phase = .runError) →
    ∃ e, t = { s with phase := t.phase, err := some e }
      ∧ (e = .outOfBounds ↔ t.phase = .runError) ∧ (e = .outOfBounds ↔ s.phase = .running)

/-! ### Compile rules -/

/-- 40_compiler R101 to R105: each of `+ - > < .` compiles to one word with its op and target 0, and `SPOS` advances. -/
def Obligations.PlainCharactersEmitOneWord : Prop :=
  ∀ s c op, (c, op) ∈ [(0x2B#8, 0), (0x2D#8, 1), (0x3E#8, 2), (0x3C#8, 3), (0x2E#8, 4)] →
    s.host = [] → s.phase = .compiling → s.src[s.spos]? = some c → s.plen < s.cfg.progCap →
    step s = .next { s with prog := s.prog ++ [op], spos := s.spos + 1 }

/-- 40_compiler R106: `[` pushes `PLEN` and emits JumpIfZero with the placeholder target 0. -/
def Obligations.OpenBracketPushesAndEmits : Prop :=
  ∀ s : State, s.host = [] → s.phase = .compiling → s.src[s.spos]? = some 0x5B#8 → s.plen < s.cfg.progCap → s.slen ≤ s.plen →
    ∃ t, step s = .next t ∧ decodeWord s.cfg.paw 6 = .ok (.jumpIfZero 0)
      ∧ t = { s with prog := s.prog ++ [6], stk := s.plen :: s.stk, spos := s.spos + 1 }

/-- 40_compiler R107: `]` on an empty stack raises UnmatchedClose, with `SPOS` left at the byte; else it pops `p`,
emits at `q = PLEN` a Jump to `p`, and makes the JumpIfZero at `p` target `q + 1`. No other word changes. -/
def Obligations.CloseBracketEmitsAndBackpatches : Prop :=
  (∀ s : State, s.host = [] → s.phase = .compiling → s.src[s.spos]? = some 0x5D#8 → s.stk = [] →
      step s = .next { s with phase := .compileError, err := some .unmatchedClose })
    ∧ ∀ s p rest x, s.host = [] → s.phase = .compiling → s.src[s.spos]? = some 0x5D#8 → s.stk = p :: rest →
      instrAt s.cfg.paw s.prog p = some (.jumpIfZero x) → s.plen < s.cfg.progCap →
      ∃ t, step s = .next t ∧ t.plen = s.plen + 1
        ∧ instrAt s.cfg.paw t.prog s.plen = some (.jump p)
        ∧ instrAt s.cfg.paw t.prog p = some (.jumpIfZero (s.plen + 1))
        ∧ (∀ i, i ≠ p → i < s.plen → t.prog[i]? = s.prog[i]?)
        ∧ t = { s with prog := t.prog, stk := rest, spos := s.spos + 1 }

/-- 40_compiler R108: every byte that is no command character changes no state but `SPOS`. -/
def Obligations.CommentBytesOnlyAdvanceSpos : Prop :=
  ∀ s c, s.phase = .compiling →
    exec (.comment c) s = .next { s with spos := s.spos + 1 }
      ∧ (c ∉ commandBytes → s.host = [] → s.src[s.spos]? = some c → step s = .next { s with spos := s.spos + 1 })

/-- 40_compiler R109: the end-of-pass step raises UnterminatedLoop when a bracket is open, and otherwise makes the
core READY. -/
def Obligations.EndOfPassChecksOpenBrackets : Prop :=
  ∀ s : State, s.host = [] → s.phase = .compiling → s.spos = s.src.length →
    (s.stk = [] → step s = .next { s with phase := .ready })
      ∧ (s.stk ≠ [] → step s = .next { s with phase := .compileError, err := some .unterminatedLoop })

/-- 40_compiler R111: a command character that must emit a word into a full Program memory is refused. -/
def Obligations.FullProgramMemoryRefusesEmit : Prop :=
  ∀ s c, c ∈ commandBytes → s.host = [] → s.phase = .compiling → s.src[s.spos]? = some c →
    s.plen = s.cfg.progCap → (c = 0x5D#8 → s.stk ≠ []) → step s = .refused .programCapacity

/-- Completion of the seven compile rules (40_compiler R101 to R107): in a good state with room for a word, the
compile rule of a command character answers a next state that is one byte on and one word longer, or, for a `]` with
no open bracket, the UnmatchedClose error. -/
def Obligations.CompileRulesComplete : Prop :=
  ∀ s i, s.Inv → s.phase = .compiling → s.plen < s.cfg.progCap →
    i ∈ [Instr.increment, .decrement, .moveRight, .moveLeft, .output, .jumpIfZero 0, .jump 0] →
    ∃ t, exec i s = .next t
      ∧ (i = .jump 0 ∧ s.stk = [] ∧ t.err = some .unmatchedClose ∧ t.spos = s.spos ∧ t.plen = s.plen
        ∨ (i = .jump 0 → s.stk ≠ []) ∧ t.phase = .compiling ∧ t.spos = s.spos + 1 ∧ t.plen = s.plen + 1)

/-! ### Host operations -/

/-- 41_dispatch R121 and 40_compiler R100: COMPILE at rest takes the buffer, clears the Program, the stack, `SPOS`
and the error, and leaves the tape, `ip`, `dp` and `OUT` alone. -/
def Obligations.CompileCommandStartsThePass : Prop :=
  ∀ s buffer later, s.host = .compile buffer :: later → s.phase.atRest = true → buffer.length ≤ s.cfg.srcCap →
    ∃ t, step s = .next t ∧ t.src = buffer ∧ t.spos = 0 ∧ t.plen = 0 ∧ t.slen = 0 ∧ t.phase = .compiling ∧ t.err = none
      ∧ t.ip = s.ip ∧ t.dp = s.dp ∧ t.tape = s.tape ∧ t.out = s.out ∧ t.cfg = s.cfg ∧ t.host = later

/-- 40_compiler R112: a COMPILE of more than `SRC_CAP` bytes is refused. -/
def Obligations.OversizedSourceIsRefused : Prop :=
  ∀ s buffer later, s.host = .compile buffer :: later → s.phase.atRest = true → s.cfg.srcCap < buffer.length →
    step s = .refused .sourceCapacity

/-- 41_dispatch R122: RUN after a successful compile, and again after a run, clears `ip`, `dp`, every cell and `OUT`
in one step, and keeps the Program. -/
def Obligations.RunCommandStartsAFreshRun : Prop :=
  ∀ s later, s.host = .run :: later → (s.phase = .ready ∨ s.phase = .done ∨ s.phase = .runError) →
    ∃ t, step s = .next t ∧ t.ip = 0 ∧ t.dp = 0 ∧ (∀ a, Memory.read t.tape a = 0) ∧ t.out = []
      ∧ t.phase = .running ∧ t.err = none ∧ t.prog = s.prog ∧ t.src = s.src ∧ t.spos = s.spos ∧ t.stk = s.stk
      ∧ t.cfg = s.cfg ∧ t.host = later

/-- 41_dispatch R120, all four rows of the table, in every phase: COMPILE is refused as HostProtocol exactly while the core
works, RUN exactly where no Program is valid or the core works, read STATUS never, and output byte exactly where the
row does not list the phase: it lists RUNNING, and under `batch` the two phases after a run. That a COMPILE above
`SRC_CAP` is refused as HostProtocol too, where SourceCapacity (R112) applies as well, is the model's choice (log 26). -/
def Obligations.HostOperationsRefusedByPhase : Prop :=
  ∀ s later, (∀ buffer, s.host = .compile buffer :: later →
        (step s = .refused .hostProtocol ↔ s.phase = .compiling ∨ s.phase = .running))
    ∧ (s.host = .run :: later →
        (step s = .refused .hostProtocol ↔
          s.phase = .idle ∨ s.phase = .compiling ∨ s.phase = .running ∨ s.phase = .compileError))
    ∧ (s.host = .readStatus :: later → step s ≠ .refused .hostProtocol)
    ∧ (s.host = .outputByte :: later →
        (step s = .refused .hostProtocol ↔
          ¬ (s.phase = .running ∨ (s.cfg.flushPolicy = .batch ∧ (s.phase = .done ∨ s.phase = .runError)))))

/-- 10_state R26 to R28 and 41_dispatch R120: read STATUS gives the host the 8-bit register, with `phase` in [2:0],
`err` in [4:3] and 0 in [7:5] by the codes of R27 and R28, and has no side effect. -/
def Obligations.ReadStatusReturnsTheRegister : Prop :=
  ∀ s later, s.host = .readStatus :: later →
    ∃ v : Byte, step s = .next { s with host := later, statusRead := some v }
      ∧ v.extractLsb' 5 3 = 0
      ∧ v.extractLsb' 0 3 = (match s.phase with
          | .idle => 0 | .compiling => 1 | .ready => 2 | .running => 3 | .done => 4 | .compileError => 5 | .runError => 6)
      ∧ v.extractLsb' 3 2 = (match s.err with
          | none => 0 | some .unmatchedClose => 1 | some .unterminatedLoop => 2 | some .outOfBounds => 3)

/-- 41_dispatch R120, R125 and R132: output byte changes no state of the core. Under `incremental`, during the run, it
hands over the next byte of `OUT`, if there is one; after the run it is refused. Under `batch` it hands over, once the run
has ended, all of `OUT` that is left. Two clauses rest on log entries of the model: that a `batch` asked for during
the run answers with nothing handed over is a reading of R120 and R125 (log 27), and that all of `OUT` is handed over
after a RUN_ERROR too is a choice where the spec says nothing (60_exceptions R208, D12; log 28). -/
def Obligations.DeliveryHandsOverOutInOrder : Prop :=
  ∀ s later, s.host = .outputByte :: later →
    (s.cfg.flushPolicy = .incremental → s.phase = .running → ∃ t, step s = .next t
        ∧ t = { s with host := later, delivered := t.delivered, received := t.received }
        ∧ t.received = s.received ++ (s.out.drop s.delivered).take 1
        ∧ (s.delivered ≤ s.out.length → t.delivered = min (s.delivered + 1) s.out.length))
    ∧ (s.cfg.flushPolicy = .incremental → s.phase = .done ∨ s.phase = .runError → step s = .refused .hostProtocol)
    ∧ (s.cfg.flushPolicy = .batch → s.phase = .running → step s = .next { s with host := later })
    ∧ (s.cfg.flushPolicy = .batch → s.phase = .done ∨ s.phase = .runError → ∃ t, step s = .next t
        ∧ t = { s with host := later, delivered := t.delivered, received := t.received }
        ∧ t.received = s.received ++ s.out.drop s.delivered
        ∧ (s.delivered ≤ s.out.length → t.delivered = s.out.length))

/-- 41_dispatch R125: no byte of a run that ends in DONE is lost. In a good state, an `incremental` run has handed over all
of `OUT` when it is DONE, and under either policy whatever leaves DONE leaves the host with all of `OUT`, in order, as
the bytes it received last. The last moments (the terminal step; the COMPILE or RUN that leaves DONE) are the model's
choice (log 11). -/
def Obligations.CompletedRunsDeliverTheirOutput : Prop :=
  ∀ s t, s.Inv → step s = .next t →
    (s.cfg.flushPolicy = .incremental → s.phase = .running → t.phase = .done →
        t.out = s.out ∧ t.received = s.received ++ s.out.drop s.delivered ∧ s.out <:+ t.received)
      ∧ (s.phase = .done → t.phase ≠ .done →
        t.received = s.received ++ s.out.drop s.delivered ∧ s.out <:+ t.received)

/-! ### Frames -/

/-- What Increment and Decrement leave alone (42_cell_arith R140, R141): `dp`, `OUT`, STATUS, the Program, the
Compiler's state, the host's side, and every cell but the one stored to, at the address the meaning computes. -/
def Obligations.CellArithmeticFrame : Prop :=
  ∀ i s t, i ∈ [Instr.increment, .decrement] → s.phase = .running → Memory.wf s.tape = true → exec i s = .next t →
    t.dp = s.dp ∧ t.out = s.out ∧ s.sameStatus t ∧ s.sameBesideVm t
      ∧ ∀ a, cellAddress s = a → ∀ b, b ≠ a → Memory.read t.tape b = Memory.read s.tape b

/-- What the other five execute rules leave alone: every cell; the Program, the Compiler's state and the host's side;
`OUT` but for Output; `dp` but for the moves; STATUS but for a move that raises OutOfBounds. -/
def Obligations.NonStoringInstructionsFrame : Prop :=
  ∀ i s t, s.phase = .running → exec i s = .next t → i ≠ .increment → i ≠ .decrement →
    s.sameCells t ∧ s.sameBesideVm t
      ∧ (i ≠ .output → t.out = s.out)
      ∧ (i ≠ .moveRight → i ≠ .moveLeft → t.dp = s.dp ∧ s.sameStatus t)
      ∧ (t.phase ≠ .runError → s.sameStatus t)

/-- 40_compiler R113: no compile rule reads or writes the VM's state, and none produces output; the source is not
written either (10_state R31). Words already emitted keep their place; only `]` rewrites one, the JumpIfZero it pops. -/
def Obligations.CompileRulesFrame : Prop :=
  ∀ i s t, s.phase = .compiling → exec i s = .next t →
    s.sameBesideCompiler t
      ∧ (∀ j, j < s.plen → s.stk.head? ≠ some j → t.prog[j]? = s.prog[j]?)
      ∧ ((∀ x, i ≠ .jump x) → (∀ j, j < s.plen → t.prog[j]? = s.prog[j]?) ∧ s.sameStatus t)

/-- 20_memory R63 and 00_scope R9: no step of any kind changes a parameter, and none but a compile step or COMPILE
changes the Program. -/
def Obligations.OnlyTheCompilerWritesTheProgram : Prop :=
  ∀ s t, step s = .next t →
    t.cfg = s.cfg ∧ (s.phase ≠ .compiling → (∀ buffer, s.host.head? ≠ some (.compile buffer)) → t.prog = s.prog)

/-- 20_memory R61 and 10_state R32: a step changes `OUT` only by appending one byte, the current cell, and only by
an Output; a RUN empties it. -/
def Obligations.OutGrowsByOutputOnly : Prop :=
  ∀ s t, s.host.head? ≠ some .run → step s = .next t →
    t.out = s.out
      ∨ (s.phase = .running ∧ instrAt s.cfg.paw s.prog s.ip = some .output
          ∧ t.out = s.out ++ [Memory.read s.tape s.dp])

/-- 20_memory R61: what has reached the host is never taken back or reordered, over every step, RUN and COMPILE among
them; and the delivered bytes of `OUT`, in order, stay the ones it received last. -/
def Obligations.ReceivedBytesAreKept : Prop :=
  ∀ s t, s.delivered ≤ s.out.length → s.out.take s.delivered <:+ s.received → step s = .next t →
    s.received <+: t.received ∧ t.out.take t.delivered <:+ t.received ∧ t.delivered ≤ t.out.length

/-! ### Invariants -/

/-- 70_reset_and_hazards R240: the values the spec gives at power-on. -/
def Obligations.PowerOnStateAsSpecified : Prop :=
  ∀ c, (State.powerOn c).phase = .idle ∧ (State.powerOn c).err = none ∧ (State.powerOn c).statusByte = 0
    ∧ (State.powerOn c).plen = 0 ∧ (State.powerOn c).out = [] ∧ State.reset.phase = .idle ∧ State.reset.err = none
    ∧ State.reset.plen = 0 ∧ State.reset.out = []

/-- The invariant holds at reset, and at power-on for every `TAPE_CELLS` above 0. The values of `ip`, `dp`, the tape
and the rest of what the spec leaves unspecified there are the model's (log 3). -/
def Obligations.InvariantHoldsAtReset : Prop :=
  State.reset.Inv ∧ ∀ c : Config, 0 < c.tapeCells → (State.powerOn c).Inv

/-- Every step from a good state leads to a good state: `dp` in range, the tape canonical, STATUS a legal pair, `ip`
at most `PLEN`, and the Program in step with the source and, once compiled, well-formed (10_state R22, R24, R28,
R30; 40_compiler R110, R114). -/
def Obligations.EveryStepKeepsTheInvariant : Prop :=
  ∀ s t, s.Inv → step s = .next t → t.Inv

/-- A good state never stops on a fault, an ill-formed Program or a resting core: a step goes on, or stops at a limit
the spec names (20_memory R56, 41_dispatch R130, 70_reset_and_hazards R242). -/
def Obligations.GoodStatesStopOnlyAtNamedLimits : Prop :=
  ∀ s : State, s.Inv → withinContract (step s)

/-- A run of a good state cannot be stopped by anything but the host: while RUNNING with no operation of the host, a
step always answers a next state (41_dispatch R130). -/
def Obligations.RunsOnlyEndInDoneOrRunError : Prop :=
  ∀ s k, s.Inv → s.phase = .running → s.host = [] →
    ∃ t, steps k s = .next t ∧ (t.phase = .running ∨ t.phase = .done ∨ t.phase = .runError)

/-- 43_pointer R152 and 10_state R22: `dp` stays in range over every instruction, and changes by one, by a move, or not
at all. -/
def Obligations.DpStaysInRange : Prop :=
  ∀ i s t, s.dp < s.cfg.tapeCells → exec i s = .next t →
    t.dp < t.cfg.tapeCells
      ∧ (t.dp = s.dp ∨ i = .moveRight ∧ t.dp = s.dp + 1 ∨ i = .moveLeft ∧ t.dp + 1 = s.dp)

/-- 10_state R28: the error code is non-zero exactly in the two error phases, with its own phase, after every step. -/
def Obligations.StatusPairStaysLegal : Prop :=
  ∀ s t, s.phase.allowsErr s.err = true → step s = .next t →
    (t.err ≠ none ↔ t.phase = .compileError ∨ t.phase = .runError)
      ∧ (t.err = some .outOfBounds ↔ t.phase = .runError)

/-- The tape's canonical form is kept by every step, so that equal tapes are equal data (model's form; log 4). -/
def Obligations.TapeStaysCanonical : Prop :=
  ∀ s t, Memory.wf s.tape = true → Memory.below s.cfg.tapeCells s.tape = true → step s = .next t →
    Memory.wf t.tape = true ∧ Memory.below t.cfg.tapeCells t.tape = true

/-- 10_state R24 and 00_scope R9: in a good state `ip` (of a run), `dp`, `PLEN` and the stack's entries fit their
registers' widths, and `DAW` bits are the fewest that hold every cell index. -/
def Obligations.RegistersFitTheirWidths : Prop :=
  ∀ s : State, s.Inv →
    s.dp < 2 ^ s.cfg.daw ∧ s.plen < 2 ^ s.cfg.paw ∧ (∀ p ∈ s.stk, s.phase = .compiling → p < s.plen)
      ∧ (s.phase = .running → s.ip ≤ s.plen)
      ∧ (1 < s.cfg.tapeCells → 2 ^ (s.cfg.daw - 1) < s.cfg.tapeCells)

/-! ### The Program (40_compiler R114, 30_encoding R80) -/

/-- 40_compiler R114: in a well-formed Program, the target of a JumpIfZero at `p` is from `p + 2` to `PLEN` and follows
the Jump back to `p`; a Jump at `q` goes back to a JumpIfZero whose target is `q + 1`. -/
def Obligations.WellFormedTargetsPairUp : Prop :=
  ∀ paw ws, wellFormedWords paw ws = true →
    (∀ p t, instrAt paw ws p = some (.jumpIfZero t) →
        p + 2 ≤ t ∧ t ≤ ws.length ∧ instrAt paw ws (t - 1) = some (.jump p))
      ∧ ∀ q p, instrAt paw ws q = some (.jump p) →
        p < q ∧ instrAt paw ws p = some (.jumpIfZero (q + 1))

/-- 30_encoding R80 is enough to tell the Program: two well-formed Programs with the same instructions but for their
targets are equal (so the source determines the Program, 40_compiler R119). -/
def Obligations.TargetsAreDeterminedByBrackets : Prop :=
  ∀ is js : List Instr, wellFormedInstrs is = true → wellFormedInstrs js = true →
    is.map Instr.sourceForm = js.map Instr.sourceForm → is = js

/-- 40_compiler R110, R114, R116, R119 and 60_exceptions R204: in a good state at rest, a COMPILE of a source within the capacities ends, after
one step a byte and one more, in READY with a well-formed Program of one word per command character, in order, if the
brackets balance; in UnmatchedClose if some `]` is stray, whatever else is wrong; and in UnterminatedLoop otherwise. -/
def Obligations.CompileEndsAsBracketsBalance : Prop :=
  ∀ s buffer, s.Inv → s.host = [.compile buffer] → s.phase.atRest = true → buffer.length ≤ s.cfg.srcCap →
    buffer.countP isCommand ≤ s.cfg.progCap →
    ∃ t, steps (buffer.length + 2) s = .next t
      ∧ (balanced buffer → t.phase = .ready ∧ t.err = none ∧ t.plen = buffer.countP isCommand
          ∧ wellFormedWords t.cfg.paw t.prog = true
          ∧ ∃ is, decodeProgram t.cfg.paw t.prog = some is
              ∧ is.map Instr.sourceForm = (buffer.filter isCommand).map decodeSource)
      ∧ (¬ noStrayClose buffer → t.phase = .compileError ∧ t.err = some .unmatchedClose)
      ∧ (noStrayClose buffer → ¬ balanced buffer → t.phase = .compileError ∧ t.err = some .unterminatedLoop)

/-! ### Runs -/

/-- 42_cell_arith R142: Increment and Decrement undo each other, in either order. -/
def Obligations.IncrementAndDecrementUndo : Prop :=
  ∀ i j s t, (i = .increment ∧ j = .decrement ∨ i = .decrement ∧ j = .increment) →
    s.phase = .running → Memory.wf s.tape = true → exec i s = .next t →
    exec j t = .next { s with ip := s.ip + 2 }

/-- 42_cell_arith R142: `k` Increments applied to a cell holding `v` leave `(v + k) mod 256`; `ip` advances by `k` and
nothing else changes. With `k = 256` the cell holds `v` again (R144). -/
def Obligations.RepeatedIncrementsAddModulo256 : Prop :=
  ∀ k s, s.phase = .running → s.host = [] → s.dp < s.cfg.tapeCells → Memory.wf s.tape = true →
    (∀ j, j < k → instrAt s.cfg.paw s.prog (s.ip + j) = some .increment) →
    ∃ t, steps k s = .next t
      ∧ (Memory.read t.tape s.dp).toNat = ((Memory.read s.tape s.dp).toNat + k) % 256
      ∧ (∀ a, a ≠ s.dp → Memory.read t.tape a = Memory.read s.tape a)
      ∧ t = { s with tape := t.tape, ip := s.ip + k }

/-- 45_control R172: in a good run, a Jump goes back to its JumpIfZero, which re-tests the current cell there: the loop
is left for the word after the Jump when the cell is 0, and entered again otherwise. -/
def Obligations.LoopRetestsCellAtItsHead : Prop :=
  ∀ s p, s.Inv → s.phase = .running → s.host = [] → instrAt s.cfg.paw s.prog s.ip = some (.jump p) →
    steps 2 s =
      .next { s with ip := if Memory.read s.tape s.dp = 0 then s.ip + 1 else p + 1 }

/-- 45_control R172: in a good run, a JumpIfZero whose cell is 0 goes past the Jump that closes its loop, in one step
and with nothing else changed. -/
def Obligations.LoopIsSkippedOnZeroCell : Prop :=
  ∀ s t, s.Inv → s.phase = .running → s.host = [] → instrAt s.cfg.paw s.prog s.ip = some (.jumpIfZero t) →
    Memory.read s.tape s.dp = 0 →
    ∃ q, step s = .next { s with ip := q + 1 } ∧ s.ip < q ∧ q < s.plen
      ∧ instrAt s.cfg.paw s.prog q = some (.jump s.ip)

/-- 41_dispatch R129: a run may never end. An empty loop entered on a non-zero cell stays RUNNING for ever, with the
tape and `OUT` unchanged. -/
def Obligations.EmptyLoopRunsForEver : Prop :=
  ∀ s p k, s.phase = .running → s.host = [] → s.ip = p → s.dp < s.cfg.tapeCells → Memory.read s.tape s.dp ≠ 0 →
    instrAt s.cfg.paw s.prog p = some (.jumpIfZero (p + 2)) → instrAt s.cfg.paw s.prog (p + 1) = some (.jump p) →
    ∃ t, steps k s = .next t ∧ t = { s with ip := if k % 2 = 0 then p else p + 1 }

/-- 41_dispatch R131: two RUNs of one Program, from whatever two states, give step for step the same `OUT`, tape,
pointers and STATUS: nothing of an earlier run or compile leaks into a run. -/
def Obligations.RunsDoNotInterfere : Prop :=
  ∀ k s s', s.cfg = s'.cfg → s.prog = s'.prog → s.host = [.run] → s'.host = [.run] →
    s.phase.allowsRun = true → s'.phase.allowsRun = true →
    runViewOf (steps (k + 1) s) = runViewOf (steps (k + 1) s')

/-- 40_compiler R119: the Program, or the error with its `SPOS`, depends only on the source bytes (and the parameters):
two COMPILEs of one buffer, from whatever two resting states, go step for step alike. -/
def Obligations.CompileDependsOnSourceAlone : Prop :=
  ∀ k s s' buffer, s.cfg = s'.cfg → s.host = [.compile buffer] → s'.host = [.compile buffer] →
    s.phase.atRest = true → s'.phase.atRest = true →
    compileViewOf (steps (k + 1) s) = compileViewOf (steps (k + 1) s')

/-- 43_pointer R153: a run that does not end in OutOfBounds is the same run on any longer tape. -/
def Obligations.LongerTapeGivesTheSameRun : Prop :=
  ∀ k n s t, s.phase = .running → s.host = [] → s.cfg.tapeCells ≤ n →
    steps k s = .next t → t.phase ≠ .runError →
    steps k (s.withTapeCells n) = .next (t.withTapeCells n)
end

