-- ==== Sys2Proof/Laws/Decode.lean ====
section
/-! SUPPORT. The fields of a word that was put together from its fields, and the widths of 00_scope R9. -/

namespace Sys2Proof

theorem lt_two_pow_ceilLog2 {n k : Nat} (h : k < n) : k < 2 ^ ceilLog2 n := by
  unfold ceilLog2
  split
  · have : k = 0 := by omega
    simp [this]
  · have := Nat.lt_log2_self (n := n - 1)
    omega

/-- `ceilLog2 n` is the least such width. -/
theorem two_pow_ceilLog2_pred_lt {n : Nat} (h : 1 < n) : 2 ^ (ceilLog2 n - 1) < n := by
  unfold ceilLog2
  rw [if_neg (by omega), Nat.add_sub_cancel]
  have := Nat.log2_self_le (n := n - 1) (by omega)
  omega

/-- Every Program index up to `PROG_CAP` fits `PAW` bits (10_state R24). -/
theorem lt_two_pow_paw {c : Config} {k : Nat} (h : k ≤ c.progCap) : k < 2 ^ c.paw :=
  lt_two_pow_ceilLog2 (by omega)

/-- Every cell index fits `DAW` bits (10_state R22). -/
theorem lt_two_pow_daw {c : Config} {k : Nat} (h : k < c.tapeCells) : k < 2 ^ c.daw :=
  lt_two_pow_ceilLog2 h

theorem opField_val (w : Nat) : (opField w).val = w % 8 := rfl

theorem opField_makeWord (paw op t : Nat) : opField (makeWord paw op t) = Fin.ofNat 8 op := by
  apply Fin.ext
  simp only [opField, makeWord, Fin.ofNat]
  omega

theorem targetField_makeWord {paw t : Nat} (op : Nat) (h : t < 2 ^ paw) : targetField paw (makeWord paw op t) = t := by
  have h8 : makeWord paw op t / 8 = t % 2 ^ paw := by unfold makeWord; omega
  rw [targetField, h8, Nat.mod_mod, Nat.mod_eq_of_lt h]

theorem makeWord_lt (paw op t : Nat) : makeWord paw op t < 2 ^ (paw + 3) := by
  have h := Nat.mod_lt t (Nat.two_pow_pos paw)
  unfold makeWord
  rw [Nat.pow_succ, Nat.pow_succ, Nat.pow_succ]
  omega

/-- A word of `PAW + 3` bits is its two fields. -/
theorem makeWord_fields {paw : Nat} {w : Nat} (h : w < 2 ^ (paw + 3)) :
    makeWord paw (opField w).val (targetField paw w) = w := by
  rw [Nat.pow_succ, Nat.pow_succ, Nat.pow_succ] at h
  have ht : w / 8 < 2 ^ paw := by omega
  rw [opField_val, targetField, makeWord, Nat.mod_mod, Nat.mod_eq_of_lt ht]
  omega

theorem makeWord_zero (paw op : Nat) (h : op < 8) : makeWord paw op 0 = op := by
  unfold makeWord
  rw [Nat.zero_mod]
  omega

/-- The backpatch keeps the op field and replaces the target (40_compiler R107). -/
theorem opField_setTarget (paw : Nat) (w : Nat) (t : Nat) : opField (setTarget paw w t) = opField w := by
  rw [setTarget, opField_makeWord]
  apply Fin.ext
  simp [Fin.ofNat, opField]

theorem targetField_setTarget {paw t : Nat} (w : Nat) (h : t < 2 ^ paw) :
    targetField paw (setTarget paw w t) = t :=
  targetField_makeWord _ h

/-- Decoding reads a word through its two fields alone. -/
theorem decodeWord_congr {paw : Nat} {w w' : Nat} (ho : opField w = opField w')
    (ht : targetField paw w = targetField paw w') : decodeWord paw w = decodeWord paw w' := by
  simp only [decodeWord, ho, ht]

theorem plainWord_eq_ok {op t : Nat} {i j : Instr} : plainWord op t i = .ok j ↔ t = 0 ∧ i = j := by
  unfold plainWord; split <;> simp_all

/-- What the decoder reads from a word put together from an op and a target that fits. -/
theorem decodeWord_makeWord {paw t : Nat} (op : Fin 8) (h : t < 2 ^ paw) :
    decodeWord paw (makeWord paw op.val t) =
      match op with
      | 0 => plainWord 0 t .increment
      | 1 => plainWord 1 t .decrement
      | 2 => plainWord 2 t .moveRight
      | 3 => plainWord 3 t .moveLeft
      | 4 => plainWord 4 t .output
      | 5 => .ok (.jump t)
      | 6 => .ok (.jumpIfZero t)
      | 7 => .ok (.reservedWord t) := by
  have ho : opField (makeWord paw op.val t) = op := by
    rw [opField_makeWord]; exact Fin.ext (Nat.mod_eq_of_lt op.isLt)
  have ht := targetField_makeWord op.val h
  rcases op with ⟨n, hn⟩
  interval_cases n <;> rw [decodeWord, ho, ht]

theorem decodeProgram_nil (paw : Nat) : decodeProgram paw [] = some [] := rfl

/-- Decoding goes word by word. -/
theorem decodeProgram_cons {paw : Nat} {w : Nat} {ws : List Nat} {is : List Instr} :
    decodeProgram paw (w :: ws) = some is ↔
      ∃ i js, decodeWord paw w = .ok i ∧ decodeProgram paw ws = some js ∧ is = i :: js := by
  rw [decodeProgram]
  cases decodeWord paw w <;> cases decodeProgram paw ws <;> simp [eq_comm]

theorem decodeProgram_append {paw : Nat} {ws : List Nat} {w : Nat} {i : Instr} : ∀ {is : List Instr},
    decodeProgram paw ws = some is → decodeWord paw w = .ok i → decodeProgram paw (ws ++ [w]) = some (is ++ [i]) := by
  induction ws with
  | nil => intro is h hw; cases h; rw [List.nil_append, decodeProgram_cons]; exact ⟨i, [], hw, rfl, rfl⟩
  | cons v ws ih =>
    intro is h hw
    obtain ⟨j, js, hv, hs, rfl⟩ := decodeProgram_cons.mp h
    rw [List.cons_append, decodeProgram_cons]
    exact ⟨j, _, hv, ih hs hw, rfl⟩

theorem decodeProgram_length {paw : Nat} {ws : List Nat} : ∀ {is : List Instr},
    decodeProgram paw ws = some is → is.length = ws.length := by
  induction ws with
  | nil => intro is h; cases h; rfl
  | cons w ws ih =>
    intro is h
    obtain ⟨i, js, -, hs, rfl⟩ := decodeProgram_cons.mp h
    simp [ih hs]

/-- The word at an index decodes to the instruction at that index. -/
theorem decodeProgram_getElem? {paw : Nat} {ws : List Nat} : ∀ {is : List Instr} {n : Nat} {w : Nat},
    decodeProgram paw ws = some is → ws[n]? = some w → ∃ i, is[n]? = some i ∧ decodeWord paw w = .ok i := by
  induction ws with
  | nil => intro is n w _ hn; simp at hn
  | cons v ws ih =>
    intro is n w h hn
    obtain ⟨i, js, hv, hs, rfl⟩ := decodeProgram_cons.mp h
    cases n with
    | zero => simp only [List.getElem?_cons_zero, Option.some.injEq] at hn; subst hn; exact ⟨i, by simp, hv⟩
    | succ n => rw [List.getElem?_cons_succ] at hn ⊢; exact ih hs hn

/-- Replacing one word by one that decodes to `i` replaces that instruction by `i`. -/
theorem decodeProgram_set {paw : Nat} {ws : List Nat} {w : Nat} {i : Instr} : ∀ {is : List Instr} {n : Nat},
    decodeProgram paw ws = some is → decodeWord paw w = .ok i → decodeProgram paw (ws.set n w) = some (is.set n i) := by
  induction ws with
  | nil => intro is n h hw; cases h; rfl
  | cons v ws ih =>
    intro is n h hw
    obtain ⟨j, js, hv, hs, rfl⟩ := decodeProgram_cons.mp h
    cases n with
    | zero => rw [List.set_cons_zero, List.set_cons_zero, decodeProgram_cons]; exact ⟨i, js, hw, hs, rfl⟩
    | succ n => rw [List.set_cons_succ, List.set_cons_succ, decodeProgram_cons]; exact ⟨j, _, hv, ih hs hw, rfl⟩

end Sys2Proof
end

