-- ==== Sys2Proof/Laws/Memory.lean ====
section
/-! SUPPORT. The laws of the tape: a read after a write, and the canonical form kept by every write. -/

namespace Sys2Proof.Machine

@[simp] theorem Memory.read_nil (a : Nat) : Memory.read [] a = 0 := rfl

/-- A canonical tape from `lo` on lists nothing below `lo`. -/
theorem Memory.read_of_lt_wfFrom {m : Memory} : ∀ {lo a : Nat}, Memory.wfFrom lo m = true → a < lo → Memory.read m a = 0 := by
  induction m with
  | nil => intros; rfl
  | cons c m ih =>
    obtain ⟨b, v⟩ := c
    intro lo a h ha
    simp only [Memory.wfFrom, Bool.and_eq_true, decide_eq_true_eq] at h
    obtain ⟨⟨hb, -⟩, hm⟩ := h
    rw [Memory.read, if_neg (by omega)]
    exact ih hm (by omega)

theorem Memory.wfFrom_mono {m : Memory} {lo lo' : Nat} (h : Memory.wfFrom lo m = true) (hl : lo' ≤ lo) :
    Memory.wfFrom lo' m = true := by
  cases m with
  | nil => rfl
  | cons c m =>
    simp only [Memory.wfFrom, Bool.and_eq_true, decide_eq_true_eq] at h ⊢
    exact ⟨⟨by omega, h.1.2⟩, h.2⟩

theorem Memory.read_consCell_same {a : Nat} {v : Byte} {m : Memory} (h : Memory.read m a = 0) :
    Memory.read (Memory.consCell a v m) a = v := by
  by_cases hv : v = Memory.unlisted
  · rw [Memory.consCell, if_pos hv, h, hv]; rfl
  · rw [Memory.consCell, if_neg hv, Memory.read, if_pos rfl]

theorem Memory.read_consCell_other {a b : Nat} {v : Byte} {m : Memory} (h : b ≠ a) :
    Memory.read (Memory.consCell a v m) b = Memory.read m b := by
  by_cases hv : v = Memory.unlisted
  · rw [Memory.consCell, if_pos hv]
  · rw [Memory.consCell, if_neg hv, Memory.read, if_neg h]

/-- A cell reads as what was last written to it (20_memory R60). -/
theorem Memory.read_write_same {m : Memory} {a : Nat} {v : Byte} :
    ∀ {lo : Nat}, Memory.wfFrom lo m = true → Memory.read (Memory.write m a v) a = v := by
  induction m with
  | nil => intro _ _; exact Memory.read_consCell_same rfl
  | cons c m ih =>
    obtain ⟨b, w⟩ := c
    intro lo h
    have hm := h
    simp only [Memory.wfFrom, Bool.and_eq_true, decide_eq_true_eq] at hm
    rw [Memory.write]
    split
    · rename_i hab
      exact Memory.read_consCell_same (Memory.read_of_lt_wfFrom (lo := b)
        (by simp only [Memory.wfFrom, Bool.and_eq_true, decide_eq_true_eq]; exact ⟨⟨le_refl b, hm.1.2⟩, hm.2⟩) hab)
    · split
      · rename_i hab
        exact Memory.read_consCell_same (Memory.read_of_lt_wfFrom hm.2 (by omega))
      · rename_i hab
        rw [Memory.read, if_neg hab]
        exact ih hm.2

/-- A write leaves every other cell alone. -/
theorem Memory.read_write_other {m : Memory} {a b : Nat} {v : Byte} (h : b ≠ a) :
    Memory.read (Memory.write m a v) b = Memory.read m b := by
  induction m with
  | nil => exact Memory.read_consCell_other h
  | cons c m ih =>
    obtain ⟨d, w⟩ := c
    rw [Memory.write]
    split
    · exact Memory.read_consCell_other h
    · split
      · rename_i hd
        rw [Memory.read_consCell_other h, Memory.read, if_neg (by omega)]
      · rw [Memory.read, Memory.read, ih]

theorem Memory.wfFrom_consCell {lo a : Nat} {v : Byte} {m : Memory} (hl : lo ≤ a)
    (h : Memory.wfFrom (a + 1) m = true) : Memory.wfFrom lo (Memory.consCell a v m) = true := by
  by_cases hv : v = Memory.unlisted
  · rw [Memory.consCell, if_pos hv]
    exact Memory.wfFrom_mono h (by omega)
  · rw [Memory.consCell, if_neg hv]
    simp only [Memory.wfFrom, Bool.and_eq_true, decide_eq_true_eq]
    exact ⟨⟨hl, hv⟩, h⟩

theorem Memory.wfFrom_write {m : Memory} {a : Nat} {v : Byte} :
    ∀ {lo : Nat}, lo ≤ a → Memory.wfFrom lo m = true → Memory.wfFrom lo (Memory.write m a v) = true := by
  induction m with
  | nil => intro lo hl _; exact Memory.wfFrom_consCell hl rfl
  | cons c m ih =>
    obtain ⟨b, w⟩ := c
    intro lo hl h
    simp only [Memory.wfFrom, Bool.and_eq_true, decide_eq_true_eq] at h
    rw [Memory.write]
    split
    · refine Memory.wfFrom_consCell hl ?_
      simp only [Memory.wfFrom, Bool.and_eq_true, decide_eq_true_eq]
      exact ⟨⟨by omega, h.1.2⟩, h.2⟩
    · split
      · rename_i hab
        exact Memory.wfFrom_consCell hl (by rw [hab]; exact h.2)
      · simp only [Memory.wfFrom, Bool.and_eq_true, decide_eq_true_eq]
        exact ⟨h.1, ih (by omega) h.2⟩

/-- Every write keeps the canonical form. -/
theorem Memory.wf_write {m : Memory} (a : Nat) (v : Byte) (h : Memory.wf m = true) :
    Memory.wf (Memory.write m a v) = true :=
  Memory.wfFrom_write (Nat.zero_le a) h

theorem Memory.below_cons {n a : Nat} {v : Byte} {m : Memory} :
    Memory.below n ((a, v) :: m) = true ↔ a < n ∧ Memory.below n m = true := by
  rw [Memory.below, List.all_cons, Bool.and_eq_true, decide_eq_true_eq]
  rfl

theorem Memory.below_consCell {n a : Nat} {v : Byte} {m : Memory} (ha : a < n) (h : Memory.below n m = true) :
    Memory.below n (Memory.consCell a v m) = true := by
  by_cases hv : v = Memory.unlisted
  · rw [Memory.consCell, if_pos hv]; exact h
  · rw [Memory.consCell, if_neg hv]
    exact Memory.below_cons.mpr ⟨ha, h⟩

/-- A write to an existing cell lists no cell that does not exist. -/
theorem Memory.below_write {n a : Nat} {v : Byte} {m : Memory} (ha : a < n) (h : Memory.below n m = true) :
    Memory.below n (Memory.write m a v) = true := by
  induction m with
  | nil => exact Memory.below_consCell ha h
  | cons c m ih =>
    obtain ⟨b, w⟩ := c
    have hm := Memory.below_cons.mp h
    rw [Memory.write]
    split
    · exact Memory.below_consCell ha h
    · split
      · exact Memory.below_consCell ha hm.2
      · exact Memory.below_cons.mpr ⟨hm.1, ih hm.2⟩

/-- Canonical tapes that read alike are the same list. -/
theorem Memory.ext_of_wfFrom {m m' : Memory} : ∀ {lo lo' : Nat}, Memory.wfFrom lo m = true → Memory.wfFrom lo' m' = true →
    (∀ a, Memory.read m a = Memory.read m' a) → m = m' := by
  induction m generalizing m' with
  | nil =>
    intro lo lo' _ h' hr
    cases m' with
    | nil => rfl
    | cons c' t' =>
      obtain ⟨b, v⟩ := c'
      simp only [Memory.wfFrom, Bool.and_eq_true, decide_eq_true_eq] at h'
      have := hr b
      rw [Memory.read_nil, Memory.read, if_pos rfl] at this
      exact absurd this.symm h'.1.2
  | cons c t ih =>
    obtain ⟨b, v⟩ := c
    intro lo lo' h h' hr
    have hm := h
    simp only [Memory.wfFrom, Bool.and_eq_true, decide_eq_true_eq] at hm
    cases m' with
    | nil =>
      have := hr b
      rw [Memory.read_nil, Memory.read, if_pos rfl] at this
      exact absurd this hm.1.2
    | cons c' t' =>
      obtain ⟨b', v'⟩ := c'
      have hm' := h'
      simp only [Memory.wfFrom, Bool.and_eq_true, decide_eq_true_eq] at hm'
      have hb : b = b' := by
        rcases Nat.lt_trichotomy b b' with hlt | heq | hgt
        · have := hr b
          rw [Memory.read, if_pos rfl, Memory.read, if_neg (by omega), Memory.read_of_lt_wfFrom hm'.2 (by omega)] at this
          exact absurd this hm.1.2
        · exact heq
        · have := hr b'
          rw [Memory.read, if_neg (by omega), Memory.read_of_lt_wfFrom hm.2 (by omega), Memory.read, if_pos rfl] at this
          exact absurd this.symm hm'.1.2
      subst hb
      have hv : v = v' := by
        have := hr b
        rwa [Memory.read, if_pos rfl, Memory.read, if_pos rfl] at this
      subst hv
      rw [ih hm.2 hm'.2 fun a => ?_]
      by_cases ha : a = b
      · subst ha
        rw [Memory.read_of_lt_wfFrom hm.2 (by omega), Memory.read_of_lt_wfFrom hm'.2 (by omega)]
      · have := hr a
        rwa [Memory.read, if_neg ha, Memory.read, if_neg ha] at this

/-- Equal memories are equal data. -/
theorem Memory.ext_of_wf {m m' : Memory} (h : Memory.wf m = true) (h' : Memory.wf m' = true)
    (hr : ∀ a, Memory.read m a = Memory.read m' a) : m = m' :=
  Memory.ext_of_wfFrom h h' hr

theorem reset_tape_wf : Memory.wf State.reset.tape = true := rfl

end Sys2Proof.Machine
end

