-- ==== Sys2Proof/Laws/Ops.lean ====
section
/-! SUPPORT. One lemma for each shared operation that says everything it can do. -/

namespace Sys2Proof.Machine

/-- `andThen` goes on exactly where its first part does. -/
theorem andThen_eq_next {r : Result} {k : State → Result} {t : State} :
    andThen r k = .next t ↔ ∃ s, r = .next s ∧ k s = .next t := by
  cases r <;> simp [andThen]

@[simp] theorem andThen_next (s : State) (k : State → Result) : andThen (.next s) k = k s := rfl
@[simp] theorem andThen_fault (f : Fault) (k : State → Result) : andThen (.fault f) k = .fault f := rfl
@[simp] theorem andThen_refused (r : Refusal) (k : State → Result) : andThen (.refused r) k = .refused r := rfl

theorem readCell_of_lt {s : State} {a : Nat} {k : Byte → Result} (h : a < s.cfg.tapeCells) :
    readCell s a k = k (Memory.read s.tape a) := if_pos h

theorem readCell_eq_next {s : State} {a : Nat} {k : Byte → Result} {t : State} :
    readCell s a k = .next t ↔ a < s.cfg.tapeCells ∧ k (Memory.read s.tape a) = .next t := by
  unfold readCell; split <;> simp_all

theorem writeCell_of_lt {s : State} {a : Nat} {v : Byte} (h : a < s.cfg.tapeCells) :
    writeCell s a v = .next { s with tape := Memory.write s.tape a v } := if_pos h

/-- The read-modify-write of the current cell: where the cell exists, one byte written and `ip` advanced. -/
theorem updateCell_of_lt {s : State} {f : Byte → Byte} (h : s.dp < s.cfg.tapeCells) :
    updateCell s f = .next { s with tape := Memory.write s.tape s.dp (f (Memory.read s.tape s.dp)), ip := s.ip + 1 } := by
  simp [updateCell, withCell, cellAddress, readCell, writeCell, h, advance]

theorem updateCell_eq_next {s t : State} {f : Byte → Byte} :
    updateCell s f = .next t ↔ s.dp < s.cfg.tapeCells
      ∧ t = { s with tape := Memory.write s.tape s.dp (f (Memory.read s.tape s.dp)), ip := s.ip + 1 } := by
  by_cases h : s.dp < s.cfg.tapeCells
  · rw [updateCell_of_lt h]; simp [h, eq_comm]
  · simp [updateCell, withCell, cellAddress, readCell, h]

/-- `emit(op, t)` appends one word, or refuses at a full Program memory (40_compiler R100, R111). -/
theorem emitWord_of_lt {s : State} {op t : Nat} (h : s.plen < s.cfg.progCap) :
    emitWord s op t = .next { s with prog := s.prog ++ [makeWord s.cfg.paw op t] } := if_neg (by omega)

theorem emitWord_of_full {s : State} {op t : Nat} (h : s.cfg.progCap ≤ s.plen) :
    emitWord s op t = .refused .programCapacity := if_pos h

theorem emitWord_eq_next {s t : State} {op x : Nat} :
    emitWord s op x = .next t ↔ s.plen < s.cfg.progCap ∧ t = { s with prog := s.prog ++ [makeWord s.cfg.paw op x] } := by
  by_cases h : s.plen < s.cfg.progCap
  · rw [emitWord_of_lt h]; simp [h, eq_comm]
  · rw [emitWord_of_full (by omega)]; simp [h]

theorem pushBracket_eq_next {s t : State} {p : Nat} :
    pushBracket s p = .next t ↔ s.slen < s.cfg.stackDepth ∧ t = { s with stk := p :: s.stk } := by
  unfold pushBracket; split <;> simp_all [eq_comm]

theorem backpatch_of_getElem? {s : State} {p t : Nat} {w : Nat} (h : s.prog[p]? = some w) :
    backpatch s p t = .next { s with prog := s.prog.set p (setTarget s.cfg.paw w t) } := by
  simp [backpatch, h]

theorem backpatch_eq_next {s t : State} {p x : Nat} :
    backpatch s p x = .next t ↔
      ∃ w, s.prog[p]? = some w ∧ t = { s with prog := s.prog.set p (setTarget s.cfg.paw w x) } := by
  unfold backpatch
  cases s.prog[p]? <;> simp [eq_comm]

/-- Error entry always answers a next state, which differs in STATUS alone (60_exceptions R205). -/
theorem raiseError_eq_next {s t : State} {e : CoreError} :
    raiseError e s = .next t ↔ t = { s with err := some e, phase := e.phase } := by
  simp [raiseError, eq_comm]

theorem byPhase_compiling {s : State} {c r : Result} (h : s.phase = .compiling) : byPhase s c r = c := by
  simp [byPhase, h]

theorem byPhase_running {s : State} {c r : Result} (h : s.phase = .running) : byPhase s c r = r := by
  simp [byPhase, h]

theorem byPhase_atRest {s : State} {c r : Result} (h : s.phase.atRest = true) : byPhase s c r = .refused .coreAtRest := by
  unfold byPhase
  split <;> simp_all [Phase.atRest]

/-- An instruction that answers a next state was executed by the component that is active. -/
theorem byPhase_eq_next {s t : State} {c r : Result} :
    byPhase s c r = .next t ↔ s.phase = .compiling ∧ c = .next t ∨ s.phase = .running ∧ r = .next t := by
  unfold byPhase; split <;> simp_all

end Sys2Proof.Machine
end

