-- ==== Sys2Proof/Laws/State.lean ====
section
/-! SUPPORT. One lemma per field for each named update of the state, and the derived views each update keeps. -/

namespace Sys2Proof.Machine

@[simp] theorem advance_cfg (s : State) : (advance s).cfg = s.cfg := rfl
@[simp] theorem advance_ip (s : State) : (advance s).ip = s.ip + 1 := rfl
@[simp] theorem advance_dp (s : State) : (advance s).dp = s.dp := rfl
@[simp] theorem advance_tape (s : State) : (advance s).tape = s.tape := rfl
@[simp] theorem advance_out (s : State) : (advance s).out = s.out := rfl
@[simp] theorem advance_prog (s : State) : (advance s).prog = s.prog := rfl
@[simp] theorem advance_stk (s : State) : (advance s).stk = s.stk := rfl
@[simp] theorem advance_src (s : State) : (advance s).src = s.src := rfl
@[simp] theorem advance_spos (s : State) : (advance s).spos = s.spos := rfl
@[simp] theorem advance_phase (s : State) : (advance s).phase = s.phase := rfl
@[simp] theorem advance_err (s : State) : (advance s).err = s.err := rfl
@[simp] theorem advance_host (s : State) : (advance s).host = s.host := rfl
@[simp] theorem advance_delivered (s : State) : (advance s).delivered = s.delivered := rfl
@[simp] theorem advance_received (s : State) : (advance s).received = s.received := rfl
@[simp] theorem advance_statusRead (s : State) : (advance s).statusRead = s.statusRead := rfl
@[simp] theorem advance_plen (s : State) : (advance s).plen = s.plen := rfl
@[simp] theorem advance_slen (s : State) : (advance s).slen = s.slen := rfl

@[simp] theorem setIp_cfg (s : State) (t : Nat) : (setIp s t).cfg = s.cfg := rfl
@[simp] theorem setIp_ip (s : State) (t : Nat) : (setIp s t).ip = t := rfl
@[simp] theorem setIp_dp (s : State) (t : Nat) : (setIp s t).dp = s.dp := rfl
@[simp] theorem setIp_tape (s : State) (t : Nat) : (setIp s t).tape = s.tape := rfl
@[simp] theorem setIp_out (s : State) (t : Nat) : (setIp s t).out = s.out := rfl
@[simp] theorem setIp_prog (s : State) (t : Nat) : (setIp s t).prog = s.prog := rfl
@[simp] theorem setIp_stk (s : State) (t : Nat) : (setIp s t).stk = s.stk := rfl
@[simp] theorem setIp_src (s : State) (t : Nat) : (setIp s t).src = s.src := rfl
@[simp] theorem setIp_spos (s : State) (t : Nat) : (setIp s t).spos = s.spos := rfl
@[simp] theorem setIp_phase (s : State) (t : Nat) : (setIp s t).phase = s.phase := rfl
@[simp] theorem setIp_err (s : State) (t : Nat) : (setIp s t).err = s.err := rfl
@[simp] theorem setIp_host (s : State) (t : Nat) : (setIp s t).host = s.host := rfl
@[simp] theorem setIp_delivered (s : State) (t : Nat) : (setIp s t).delivered = s.delivered := rfl
@[simp] theorem setIp_received (s : State) (t : Nat) : (setIp s t).received = s.received := rfl
@[simp] theorem setIp_statusRead (s : State) (t : Nat) : (setIp s t).statusRead = s.statusRead := rfl
@[simp] theorem setIp_plen (s : State) (t : Nat) : (setIp s t).plen = s.plen := rfl
@[simp] theorem setIp_slen (s : State) (t : Nat) : (setIp s t).slen = s.slen := rfl

@[simp] theorem setDp_cfg (s : State) (a : Nat) : (setDp s a).cfg = s.cfg := rfl
@[simp] theorem setDp_ip (s : State) (a : Nat) : (setDp s a).ip = s.ip := rfl
@[simp] theorem setDp_dp (s : State) (a : Nat) : (setDp s a).dp = a := rfl
@[simp] theorem setDp_tape (s : State) (a : Nat) : (setDp s a).tape = s.tape := rfl
@[simp] theorem setDp_out (s : State) (a : Nat) : (setDp s a).out = s.out := rfl
@[simp] theorem setDp_prog (s : State) (a : Nat) : (setDp s a).prog = s.prog := rfl
@[simp] theorem setDp_stk (s : State) (a : Nat) : (setDp s a).stk = s.stk := rfl
@[simp] theorem setDp_src (s : State) (a : Nat) : (setDp s a).src = s.src := rfl
@[simp] theorem setDp_spos (s : State) (a : Nat) : (setDp s a).spos = s.spos := rfl
@[simp] theorem setDp_phase (s : State) (a : Nat) : (setDp s a).phase = s.phase := rfl
@[simp] theorem setDp_err (s : State) (a : Nat) : (setDp s a).err = s.err := rfl
@[simp] theorem setDp_host (s : State) (a : Nat) : (setDp s a).host = s.host := rfl
@[simp] theorem setDp_delivered (s : State) (a : Nat) : (setDp s a).delivered = s.delivered := rfl
@[simp] theorem setDp_received (s : State) (a : Nat) : (setDp s a).received = s.received := rfl
@[simp] theorem setDp_statusRead (s : State) (a : Nat) : (setDp s a).statusRead = s.statusRead := rfl
@[simp] theorem setDp_plen (s : State) (a : Nat) : (setDp s a).plen = s.plen := rfl
@[simp] theorem setDp_slen (s : State) (a : Nat) : (setDp s a).slen = s.slen := rfl

@[simp] theorem emitByte_cfg (s : State) (v : Byte) : (emitByte s v).cfg = s.cfg := rfl
@[simp] theorem emitByte_ip (s : State) (v : Byte) : (emitByte s v).ip = s.ip := rfl
@[simp] theorem emitByte_dp (s : State) (v : Byte) : (emitByte s v).dp = s.dp := rfl
@[simp] theorem emitByte_tape (s : State) (v : Byte) : (emitByte s v).tape = s.tape := rfl
@[simp] theorem emitByte_out (s : State) (v : Byte) : (emitByte s v).out = s.out ++ [v] := rfl
@[simp] theorem emitByte_prog (s : State) (v : Byte) : (emitByte s v).prog = s.prog := rfl
@[simp] theorem emitByte_stk (s : State) (v : Byte) : (emitByte s v).stk = s.stk := rfl
@[simp] theorem emitByte_src (s : State) (v : Byte) : (emitByte s v).src = s.src := rfl
@[simp] theorem emitByte_spos (s : State) (v : Byte) : (emitByte s v).spos = s.spos := rfl
@[simp] theorem emitByte_phase (s : State) (v : Byte) : (emitByte s v).phase = s.phase := rfl
@[simp] theorem emitByte_err (s : State) (v : Byte) : (emitByte s v).err = s.err := rfl
@[simp] theorem emitByte_host (s : State) (v : Byte) : (emitByte s v).host = s.host := rfl
@[simp] theorem emitByte_delivered (s : State) (v : Byte) : (emitByte s v).delivered = s.delivered := rfl
@[simp] theorem emitByte_received (s : State) (v : Byte) : (emitByte s v).received = s.received := rfl
@[simp] theorem emitByte_statusRead (s : State) (v : Byte) : (emitByte s v).statusRead = s.statusRead := rfl
@[simp] theorem emitByte_plen (s : State) (v : Byte) : (emitByte s v).plen = s.plen := rfl
@[simp] theorem emitByte_slen (s : State) (v : Byte) : (emitByte s v).slen = s.slen := rfl

@[simp] theorem nextChar_cfg (s : State) : (nextChar s).cfg = s.cfg := rfl
@[simp] theorem nextChar_ip (s : State) : (nextChar s).ip = s.ip := rfl
@[simp] theorem nextChar_dp (s : State) : (nextChar s).dp = s.dp := rfl
@[simp] theorem nextChar_tape (s : State) : (nextChar s).tape = s.tape := rfl
@[simp] theorem nextChar_out (s : State) : (nextChar s).out = s.out := rfl
@[simp] theorem nextChar_prog (s : State) : (nextChar s).prog = s.prog := rfl
@[simp] theorem nextChar_stk (s : State) : (nextChar s).stk = s.stk := rfl
@[simp] theorem nextChar_src (s : State) : (nextChar s).src = s.src := rfl
@[simp] theorem nextChar_spos (s : State) : (nextChar s).spos = s.spos + 1 := rfl
@[simp] theorem nextChar_phase (s : State) : (nextChar s).phase = s.phase := rfl
@[simp] theorem nextChar_err (s : State) : (nextChar s).err = s.err := rfl
@[simp] theorem nextChar_host (s : State) : (nextChar s).host = s.host := rfl
@[simp] theorem nextChar_delivered (s : State) : (nextChar s).delivered = s.delivered := rfl
@[simp] theorem nextChar_received (s : State) : (nextChar s).received = s.received := rfl
@[simp] theorem nextChar_statusRead (s : State) : (nextChar s).statusRead = s.statusRead := rfl
@[simp] theorem nextChar_plen (s : State) : (nextChar s).plen = s.plen := rfl
@[simp] theorem nextChar_slen (s : State) : (nextChar s).slen = s.slen := rfl

@[simp] theorem afterWait_cfg (s : State) : s.afterWait.cfg = s.cfg := rfl
@[simp] theorem afterWait_ip (s : State) : s.afterWait.ip = s.ip := rfl
@[simp] theorem afterWait_dp (s : State) : s.afterWait.dp = s.dp := rfl
@[simp] theorem afterWait_tape (s : State) : s.afterWait.tape = s.tape := rfl
@[simp] theorem afterWait_out (s : State) : s.afterWait.out = s.out := rfl
@[simp] theorem afterWait_prog (s : State) : s.afterWait.prog = s.prog := rfl
@[simp] theorem afterWait_stk (s : State) : s.afterWait.stk = s.stk := rfl
@[simp] theorem afterWait_src (s : State) : s.afterWait.src = s.src := rfl
@[simp] theorem afterWait_spos (s : State) : s.afterWait.spos = s.spos := rfl
@[simp] theorem afterWait_phase (s : State) : s.afterWait.phase = s.phase := rfl
@[simp] theorem afterWait_err (s : State) : s.afterWait.err = s.err := rfl
@[simp] theorem afterWait_host (s : State) : s.afterWait.host = s.host.tail := rfl
@[simp] theorem afterWait_delivered (s : State) : s.afterWait.delivered = s.delivered := rfl
@[simp] theorem afterWait_received (s : State) : s.afterWait.received = s.received := rfl
@[simp] theorem afterWait_statusRead (s : State) : s.afterWait.statusRead = s.statusRead := rfl
@[simp] theorem afterWait_plen (s : State) : s.afterWait.plen = s.plen := rfl
@[simp] theorem afterWait_slen (s : State) : s.afterWait.slen = s.slen := rfl

@[simp] theorem deliver_cfg (n : Nat) (s : State) : (deliver n s).cfg = s.cfg := rfl
@[simp] theorem deliver_ip (n : Nat) (s : State) : (deliver n s).ip = s.ip := rfl
@[simp] theorem deliver_dp (n : Nat) (s : State) : (deliver n s).dp = s.dp := rfl
@[simp] theorem deliver_tape (n : Nat) (s : State) : (deliver n s).tape = s.tape := rfl
@[simp] theorem deliver_out (n : Nat) (s : State) : (deliver n s).out = s.out := rfl
@[simp] theorem deliver_prog (n : Nat) (s : State) : (deliver n s).prog = s.prog := rfl
@[simp] theorem deliver_stk (n : Nat) (s : State) : (deliver n s).stk = s.stk := rfl
@[simp] theorem deliver_src (n : Nat) (s : State) : (deliver n s).src = s.src := rfl
@[simp] theorem deliver_spos (n : Nat) (s : State) : (deliver n s).spos = s.spos := rfl
@[simp] theorem deliver_phase (n : Nat) (s : State) : (deliver n s).phase = s.phase := rfl
@[simp] theorem deliver_err (n : Nat) (s : State) : (deliver n s).err = s.err := rfl
@[simp] theorem deliver_host (n : Nat) (s : State) : (deliver n s).host = s.host := rfl
@[simp] theorem deliver_statusRead (n : Nat) (s : State) : (deliver n s).statusRead = s.statusRead := rfl
@[simp] theorem deliver_received (n : Nat) (s : State) :
    (deliver n s).received = s.received ++ (s.out.drop s.delivered).take n := rfl
@[simp] theorem deliver_delivered (n : Nat) (s : State) :
    (deliver n s).delivered = s.delivered + ((s.out.drop s.delivered).take n).length := rfl

/-- Handing over nothing changes nothing. -/
@[simp] theorem deliver_zero (s : State) : deliver 0 s = s := by simp [deliver]

@[simp] theorem deliverRest_cfg (s : State) : (deliverRest s).cfg = s.cfg := rfl
@[simp] theorem deliverRest_ip (s : State) : (deliverRest s).ip = s.ip := rfl
@[simp] theorem deliverRest_dp (s : State) : (deliverRest s).dp = s.dp := rfl
@[simp] theorem deliverRest_tape (s : State) : (deliverRest s).tape = s.tape := rfl
@[simp] theorem deliverRest_out (s : State) : (deliverRest s).out = s.out := rfl
@[simp] theorem deliverRest_prog (s : State) : (deliverRest s).prog = s.prog := rfl
@[simp] theorem deliverRest_stk (s : State) : (deliverRest s).stk = s.stk := rfl
@[simp] theorem deliverRest_src (s : State) : (deliverRest s).src = s.src := rfl
@[simp] theorem deliverRest_spos (s : State) : (deliverRest s).spos = s.spos := rfl
@[simp] theorem deliverRest_phase (s : State) : (deliverRest s).phase = s.phase := rfl
@[simp] theorem deliverRest_err (s : State) : (deliverRest s).err = s.err := rfl
@[simp] theorem deliverRest_host (s : State) : (deliverRest s).host = s.host := rfl
@[simp] theorem deliverRest_statusRead (s : State) : (deliverRest s).statusRead = s.statusRead := rfl
@[simp] theorem deliverRest_received (s : State) :
    (deliverRest s).received = s.received ++ s.out.drop s.delivered := by
  simp [deliverRest, List.take_of_length_le]
theorem deliverRest_delivered {s : State} (h : s.delivered ≤ s.out.length) : (deliverRest s).delivered = s.out.length := by
  simp only [deliverRest, deliver_delivered, List.length_take, List.length_drop]
  omega

/-- What leaves DONE hands over the rest of `OUT`; in every other phase nothing is owed. -/
theorem settleOutput_cases (s : State) :
    s.phase = .done ∧ settleOutput s = deliverRest s ∨ s.phase ≠ .done ∧ settleOutput s = s := by
  unfold settleOutput owedOnLeaving
  cases s.phase <;> simp [deliverRest]

@[simp] theorem settleOutput_cfg (s : State) : (settleOutput s).cfg = s.cfg := rfl
@[simp] theorem settleOutput_ip (s : State) : (settleOutput s).ip = s.ip := rfl
@[simp] theorem settleOutput_dp (s : State) : (settleOutput s).dp = s.dp := rfl
@[simp] theorem settleOutput_tape (s : State) : (settleOutput s).tape = s.tape := rfl
@[simp] theorem settleOutput_out (s : State) : (settleOutput s).out = s.out := rfl
@[simp] theorem settleOutput_prog (s : State) : (settleOutput s).prog = s.prog := rfl
@[simp] theorem settleOutput_stk (s : State) : (settleOutput s).stk = s.stk := rfl
@[simp] theorem settleOutput_src (s : State) : (settleOutput s).src = s.src := rfl
@[simp] theorem settleOutput_spos (s : State) : (settleOutput s).spos = s.spos := rfl
@[simp] theorem settleOutput_phase (s : State) : (settleOutput s).phase = s.phase := rfl
@[simp] theorem settleOutput_err (s : State) : (settleOutput s).err = s.err := rfl
@[simp] theorem settleOutput_host (s : State) : (settleOutput s).host = s.host := rfl
@[simp] theorem settleOutput_statusRead (s : State) : (settleOutput s).statusRead = s.statusRead := rfl

/-- A state whose host does nothing is its own state after the wait, when the timeline is empty. -/
theorem afterWait_of_host_nil (s : State) (h : s.host = []) : s.afterWait = s := by
  cases s
  simp_all [State.afterWait]

end Sys2Proof.Machine
end

