-- ==== Sys2Proof/Laws/Exec.lean ====
section
/-! SUPPORT. What each meaning answers in each phase, and one inversion lemma for each: if it answers a next state,
which. Proofs about a step cite these instead of unfolding the meanings. -/

namespace Sys2Proof.Machine

/-! ### Execute rules -/

theorem exec_increment_running {s t : State} (h : s.phase = .running) :
    exec .increment s = .next t ↔ s.dp < s.cfg.tapeCells
      ∧ t = { s with tape := Memory.write s.tape s.dp (Memory.read s.tape s.dp + 1), ip := s.ip + 1 } := by
  simp only [exec, execIncrement, byPhase_running h, runIncrement, updateCell_eq_next]

theorem exec_decrement_running {s t : State} (h : s.phase = .running) :
    exec .decrement s = .next t ↔ s.dp < s.cfg.tapeCells
      ∧ t = { s with tape := Memory.write s.tape s.dp (Memory.read s.tape s.dp + 255), ip := s.ip + 1 } := by
  simp only [exec, execDecrement, byPhase_running h, runDecrement, updateCell_eq_next]

theorem exec_moveRight_running {s : State} (h : s.phase = .running) :
    exec .moveRight s = if s.cfg.tapeCells ≤ s.dp + 1 then raiseError .outOfBounds s
      else .next { s with dp := s.dp + 1, ip := s.ip + 1 } := by
  simp only [exec, execMoveRight, byPhase_running h, runMoveRight, advance, setDp]

theorem exec_moveLeft_running {s : State} (h : s.phase = .running) :
    exec .moveLeft s = if s.dp = 0 then raiseError .outOfBounds s
      else .next { s with dp := s.dp - 1, ip := s.ip + 1 } := by
  simp only [exec, execMoveLeft, byPhase_running h, runMoveLeft, advance, setDp]

theorem exec_output_running {s t : State} (h : s.phase = .running) :
    exec .output s = .next t ↔ s.dp < s.cfg.tapeCells
      ∧ t = { s with out := s.out ++ [Memory.read s.tape s.dp], ip := s.ip + 1 } := by
  simp only [exec, execOutput, byPhase_running h, runOutput, withCell, cellAddress, readCell_eq_next, advance, emitByte,
    Host.Outcome.next.injEq]
  constructor <;> (rintro ⟨hd, rfl⟩; exact ⟨hd, rfl⟩)

theorem exec_jump_running {s : State} (x : Nat) (h : s.phase = .running) :
    exec (.jump x) s = .next { s with ip := x } := by
  simp only [exec, execJump, byPhase_running h, runJump, setIp]

theorem exec_jumpIfZero_running {s t : State} {x : Nat} (h : s.phase = .running) :
    exec (.jumpIfZero x) s = .next t ↔ s.dp < s.cfg.tapeCells
      ∧ t = { s with ip := if Memory.read s.tape s.dp = 0 then x else s.ip + 1 } := by
  simp only [exec, execJumpIfZero, byPhase_running h, runJumpIfZero, withCell, cellAddress, readCell_eq_next, isZeroCell,
    decide_eq_true_eq, advance, setIp]
  split <;> simp [eq_comm]

theorem exec_comment_running {s : State} (c : Byte) (h : s.phase = .running) :
    exec (.comment c) s = .refused .illFormedProgram := by
  simp only [exec, execComment, byPhase_running h]

theorem exec_reservedWord (s : State) (x : Nat) : exec (.reservedWord x) s = .refused .illFormedProgram := rfl

/-! ### Compile rules -/

/-- The source instructions that emit one plain word, with the word (40_compiler R101 to R105). -/
def plainOp : Instr → Option Nat
  | .increment => some 0
  | .decrement => some 1
  | .moveRight => some 2
  | .moveLeft => some 3
  | .output => some 4
  | .jumpIfZero _ => none
  | .jump _ => none
  | .comment _ => none
  | .reservedWord _ => none

theorem plainOp_lt {i : Instr} {op : Nat} (h : plainOp i = some op) : op < 5 := by
  cases i <;> simp_all [plainOp] <;> omega

/-- The word a plain character emits holds its instruction. -/
theorem decodeWord_plainOp {paw op : Nat} {i : Instr} (h : plainOp i = some op) : decodeWord paw op = .ok i := by
  have h0 : targetField paw op = 0 := by
    have := plainOp_lt h
    rw [targetField, Nat.div_eq_of_lt (by omega), Nat.zero_mod]
  cases i <;> simp only [plainOp, Option.some.injEq, reduceCtorEq] at h <;> subst h <;>
    simp only [decodeWord, opField, h0] <;> rfl

theorem emitChar_eq_next {s t : State} {op : Nat} (ho : op < 8) :
    emitChar s op 0 = .next t ↔ s.plen < s.cfg.progCap ∧ t = { s with prog := s.prog ++ [op], spos := s.spos + 1 } := by
  simp only [emitChar, andThen_eq_next, emitWord_eq_next, makeWord_zero _ _ ho, Host.Outcome.next.injEq, nextChar]
  constructor
  · rintro ⟨_, ⟨h, rfl⟩, rfl⟩; exact ⟨h, rfl⟩
  · rintro ⟨h, rfl⟩; exact ⟨_, ⟨h, rfl⟩, rfl⟩

/-- A plain character's compile rule: one word appended, one byte on. -/
theorem exec_plain_compiling {s t : State} {i : Instr} {op : Nat} (hp : plainOp i = some op) (h : s.phase = .compiling) :
    exec i s = .next t ↔ s.plen < s.cfg.progCap ∧ t = { s with prog := s.prog ++ [op], spos := s.spos + 1 } := by
  cases i <;> simp only [plainOp, Option.some.injEq, reduceCtorEq] at hp <;> subst hp <;>
    simp only [exec, execIncrement, execDecrement, execMoveRight, execMoveLeft, execOutput, byPhase_compiling h,
      compileIncrement, compileDecrement, compileMoveRight, compileMoveLeft, compileOutput] <;>
    exact emitChar_eq_next (by omega)

/-- `[` (40_compiler R106). -/
theorem exec_open_compiling {s t : State} {x : Nat} (h : s.phase = .compiling) :
    exec (.jumpIfZero x) s = .next t ↔ s.plen < s.cfg.progCap ∧ s.slen < s.cfg.stackDepth
      ∧ t = { s with prog := s.prog ++ [6], stk := s.plen :: s.stk, spos := s.spos + 1 } := by
  simp only [exec, execJumpIfZero, byPhase_compiling h, compileOpen, andThen_eq_next, emitWord_eq_next,
    pushBracket_eq_next, makeWord_zero _ 6 (by omega), Host.Outcome.next.injEq, nextChar]
  constructor
  · rintro ⟨_, ⟨h1, rfl⟩, _, ⟨h2, rfl⟩, rfl⟩; exact ⟨h1, h2, rfl⟩
  · rintro ⟨h1, h2, rfl⟩; exact ⟨_, ⟨h1, rfl⟩, _, ⟨h2, rfl⟩, rfl⟩

/-- `]` with no open bracket (40_compiler R107). -/
theorem exec_close_compiling_nil {s : State} {x : Nat} (h : s.phase = .compiling) (hs : s.stk = []) :
    exec (.jump x) s = .next { s with err := some .unmatchedClose, phase := .compileError } := by
  simp only [exec, execJump, byPhase_compiling h, compileClose, hs, raiseError, CoreError.phase]

/-- `]` closing the bracket at `p` (40_compiler R107): `v` is the word at `p` once the Jump is appended. -/
theorem exec_close_compiling_cons {s t : State} {x p : Nat} {rest : List Nat} (h : s.phase = .compiling)
    (hs : s.stk = p :: rest) :
    exec (.jump x) s = .next t ↔ s.plen < s.cfg.progCap
      ∧ ∃ v, (s.prog ++ [makeWord s.cfg.paw 5 p])[p]? = some v
        ∧ t = { s with
                prog := (s.prog ++ [makeWord s.cfg.paw 5 p]).set p (setTarget s.cfg.paw v (s.plen + 1))
                stk := rest
                spos := s.spos + 1 } := by
  simp only [exec, execJump, byPhase_compiling h, compileClose, hs, andThen_eq_next, emitWord_eq_next,
    backpatch_eq_next, Host.Outcome.next.injEq, nextChar, State.plen]
  constructor
  · rintro ⟨_, ⟨h1, rfl⟩, _, ⟨v, hv, rfl⟩, rfl⟩
    refine ⟨h1, v, hv, ?_⟩
    simp
  · rintro ⟨h1, v, hv, rfl⟩
    refine ⟨_, ⟨h1, rfl⟩, _, ⟨v, hv, rfl⟩, ?_⟩
    simp

theorem exec_comment_compiling {s : State} (c : Byte) (h : s.phase = .compiling) :
    exec (.comment c) s = .next { s with spos := s.spos + 1 } := by
  simp only [exec, execComment, byPhase_compiling h, compileComment, nextChar]

/-- An instruction that answers a next state was executed by the Compiler or by the VM. -/
theorem phase_of_exec_eq_next {i : Instr} {s t : State} (h : exec i s = .next t) :
    s.phase = .compiling ∨ s.phase = .running := by
  cases i with
  | reservedWord x => simp [exec, execReservedWord] at h
  | _ =>
    simp only [exec, execIncrement, execDecrement, execMoveRight, execMoveLeft, execOutput, execJump,
      execJumpIfZero, execComment, byPhase_eq_next] at h
    exact h.imp And.left And.left

/-! ### The step -/

/-- Where the host issues no operation, a step is the core's. -/
theorem step_of_hostWaits {s : State} (h : s.hostWaits) : step s = coreStep s.afterWait := by
  unfold step hostStep
  rcases h with h | h
  · rw [h, afterWait_of_host_nil s h]
  · cases hs : s.host with
    | nil => simp [hs] at h
    | cons op later =>
      simp only [hs, List.head?_cons, Option.some.injEq] at h
      subst h
      simp [State.afterWait, hs]

theorem coreStep_of_compiling {s : State} (h : s.phase = .compiling) : coreStep s = compileStep s := by
  simp [coreStep, h]

theorem coreStep_of_running {s : State} (h : s.phase = .running) : coreStep s = dispatchStep s := by
  simp [coreStep, h]

theorem coreStep_atRest {s : State} (h : s.phase.atRest = true) : coreStep s = .next s := by
  unfold coreStep
  split <;> simp_all [Phase.atRest]

/-- A step of the core that answers a next state is one of five (40_compiler R100, 41_dispatch R123, 60_exceptions
R217). -/
theorem coreStep_cases {s t : State} (h : coreStep s = .next t) :
    (∃ c, s.phase = .compiling ∧ s.src[s.spos]? = some c ∧ exec (decodeSource c) s = .next t)
      ∨ (s.phase = .compiling ∧ s.spos = s.src.length ∧ endOfPass s = .next t)
      ∨ (s.phase = .running ∧ s.ip = s.plen ∧ endOfRun s = .next t)
      ∨ (∃ w i, s.phase = .running ∧ s.prog[s.ip]? = some w ∧ decodeWord s.cfg.paw w = .ok i ∧ exec i s = .next t)
      ∨ (s.phase.atRest = true ∧ t = s) := by
  by_cases hc : s.phase = .compiling
  · rw [coreStep_of_compiling hc, compileStep] at h
    split at h
    · exact .inl ⟨_, hc, by assumption, h⟩
    · split at h
      · exact .inr (.inl ⟨hc, by assumption, h⟩)
      · simp at h
  · by_cases hr : s.phase = .running
    · rw [coreStep_of_running hr, dispatchStep] at h
      split at h
      · exact .inr (.inr (.inl ⟨hr, by assumption, h⟩))
      · split at h
        · simp at h
        · split at h
          · exact .inr (.inr (.inr (.inl ⟨_, _, hr, by assumption, by assumption, h⟩)))
          · simp at h
    · have ha : s.phase.atRest = true := by
        cases hp : s.phase <;> simp_all [Phase.atRest]
      rw [coreStep_atRest ha] at h
      exact .inr (.inr (.inr (.inr ⟨ha, by simpa [eq_comm] using h⟩)))

theorem steps_zero (s : State) : steps 0 s = .next s := rfl

theorem steps_succ (k : Nat) (s : State) : steps (k + 1) s = andThen (step s) (steps k) := rfl

theorem host_run_of_next (M : Host.Core) (k : Nat) {s s' : M.State} (h : M.step s = .next s') :
    M.run (k + 1) s = M.run k s' := by
  rw [Host.Core.run, h]

theorem host_run_of_fault (M : Host.Core) (k : Nat) {s : M.State} {f : M.Fault} (h : M.step s = .fault f) :
    M.run (k + 1) s = .fault f := by
  rw [Host.Core.run, h]

theorem host_run_of_refused (M : Host.Core) (k : Nat) {s : M.State} {r : M.Refusal} (h : M.step s = .refused r) :
    M.run (k + 1) s = .refused r := by
  rw [Host.Core.run, h]

/-- The host's runner of the machine is `steps`. -/
theorem core_run_eq_steps (k : Nat) : ∀ s : State, Host.Core.run Sys2Proof.core k s = steps k s := by
  induction k with
  | zero => intro s; rfl
  | succ k ih =>
    intro s
    rw [steps_succ]
    cases h : step s with
    | next s' => exact (host_run_of_next Sys2Proof.core k h).trans (ih s')
    | fault f => exact host_run_of_fault Sys2Proof.core k h
    | refused r => exact host_run_of_refused Sys2Proof.core k h

/-- The terminal step sets the phase DONE, and hands over what an `incremental` run still holds (41_dispatch R125, R128). -/
theorem endOfRun_eq_next {s t : State} :
    endOfRun s = .next t ↔ s.cfg.flushPolicy = .incremental ∧ t = { deliverRest s with phase := .done }
      ∨ s.cfg.flushPolicy = .batch ∧ t = { s with phase := .done } := by
  unfold endOfRun owedAtEnd
  cases s.cfg.flushPolicy <;> simp [deliverRest, eq_comm]

theorem endOfPass_eq_next {s t : State} :
    endOfPass s = .next t ↔ s.stk = [] ∧ t = { s with phase := .ready }
      ∨ s.stk ≠ [] ∧ t = { s with err := some .unterminatedLoop, phase := .compileError } := by
  unfold endOfPass
  split <;> simp_all [raiseError, CoreError.phase, eq_comm]

/-- What one step can do: the core's own step where the host waits, or one operation of the host. -/
theorem step_cases {s t : State} (h : step s = .next t) :
    (s.hostWaits ∧ coreStep s.afterWait = .next t)
      ∨ (∃ buffer, s.host.head? = some (.compile buffer) ∧ startCompile buffer s.afterWait = .next t)
      ∨ (s.host.head? = some .run ∧ startRun s.afterWait = .next t)
      ∨ (s.host.head? = some .readStatus ∧ readStatus s.afterWait = .next t)
      ∨ (s.host.head? = some .outputByte ∧ deliverOutput s.afterWait = .next t) := by
  by_cases hw : s.hostWaits
  · exact .inl ⟨hw, by rwa [step_of_hostWaits hw] at h⟩
  · unfold step hostStep at h
    cases hs : s.host with
    | nil => exact absurd (.inl hs) hw
    | cons op later =>
      have ha : s.afterWait = { s with host := later } := by simp [State.afterWait, hs]
      rw [hs] at h
      rw [ha, List.head?_cons]
      cases op with
      | wait => exact absurd (.inr (by rw [hs]; rfl)) hw
      | compile buffer => exact .inr (.inl ⟨buffer, rfl, h⟩)
      | run => exact .inr (.inr (.inl ⟨rfl, h⟩))
      | readStatus => exact .inr (.inr (.inr (.inl ⟨rfl, h⟩)))
      | outputByte => exact .inr (.inr (.inr (.inr ⟨rfl, h⟩)))

theorem startCompile_eq_next {s t : State} {buffer : List Byte} :
    startCompile buffer s = .next t ↔ s.phase.atRest = true ∧ buffer.length ≤ s.cfg.srcCap
      ∧ t = { settleOutput s with src := buffer, spos := 0, prog := [], stk := [], phase := .compiling, err := none } := by
  unfold startCompile
  by_cases h1 : s.phase.atRest = true <;> by_cases h2 : s.cfg.srcCap < buffer.length
  · simp [h1, h2]
  · simp [h1, h2, Nat.not_lt.mp h2, eq_comm]
  · simp [h1]
  · simp [h1]

theorem startRun_eq_next {s t : State} :
    startRun s = .next t ↔ s.phase.allowsRun = true
      ∧ t = { settleOutput s with
              ip := 0, dp := 0, tape := [], out := [], delivered := 0, phase := .running, err := none } := by
  unfold startRun
  by_cases h : s.phase.allowsRun = true <;> simp [h, eq_comm]

theorem readStatus_eq_next {s t : State} :
    readStatus s = .next t ↔ t = { s with statusRead := some s.statusByte } := by
  simp [readStatus, eq_comm]

/-- A delivery the host asks for hands over some number of bytes, or nothing. -/
theorem deliverOutput_eq_next {s t : State} (h : deliverOutput s = .next t) :
    s.phase.allowsOutput s.cfg.flushPolicy = true ∧ (t = s ∨ ∃ n, t = deliver n s) := by
  unfold deliverOutput at h
  by_cases ha : s.phase.allowsOutput s.cfg.flushPolicy = true
  · refine ⟨ha, ?_⟩
    simp only [ha, Bool.not_true, Bool.false_eq_true, if_false] at h
    split at h
    · exact .inr ⟨1, by simpa [eq_comm] using h⟩
    · split at h
      · exact .inl (by simpa [eq_comm] using h)
      · exact .inr ⟨s.out.length, by simpa [deliverRest, eq_comm] using h⟩
  · simp [ha] at h

/-- output byte changes the record of what the host has, and nothing else. -/
theorem deliverOutput_frame {s t : State} (h : deliverOutput s = .next t) :
    ∃ d rs, t = { s with delivered := d, received := rs } := by
  obtain ⟨-, rfl | ⟨n, rfl⟩⟩ := deliverOutput_eq_next h
  · exact ⟨t.delivered, t.received, rfl⟩
  · exact ⟨_, _, rfl⟩

/-- A delivery keeps what the host has, adds to its end, and leaves delivered bytes of `OUT` at its end. -/
theorem deliver_received_suffix {s : State} (n : Nat)
    (hs : s.out.take s.delivered <:+ s.received) :
    (deliver n s).out.take (deliver n s).delivered <:+ (deliver n s).received := by
  obtain ⟨earlier, he⟩ := hs
  refine ⟨earlier, ?_⟩
  simp only [deliver_out, deliver_delivered, deliver_received, ← he, List.append_assoc, List.take_add,
    List.length_take]
  congr 2
  rcases Nat.le_total n (s.out.drop s.delivered).length with h | h
  · rw [Nat.min_eq_left h]
  · rw [Nat.min_eq_right h, List.take_length, List.take_of_length_le h]

/-- A delivery never goes beyond `OUT`. -/
theorem deliver_delivered_le {s : State} (n : Nat) (h : s.delivered ≤ s.out.length) :
    (deliver n s).delivered ≤ s.out.length := by
  simp only [deliver_delivered, List.length_take, List.length_drop]
  omega

end Sys2Proof.Machine
end

