-- ==== Sys2Proof/Laws/Scan.lean ====
section
/-! SUPPORT. The bracket scan of 30_encoding R80: one item more at the end, and the backpatch of an open bracket. -/

namespace Sys2Proof

/-- The scan of a sequence with one item more scans the item where the sequence left off. -/
theorem scanBrackets_append (js : List Instr) : ∀ (is : List Instr) (i : Nat) (opened : List (Nat × Nat)),
    scanBrackets (is ++ js) i opened =
      (scanBrackets is i opened).bind fun rest => scanBrackets js (i + is.length) rest := by
  intro is
  induction is with
  | nil => intro i opened; simp [scanBrackets]
  | cons x is ih =>
    intro i opened
    have hl : i + (x :: is).length = i + 1 + is.length := by simp; omega
    rw [hl, List.cons_append]
    cases x with
    | jump t =>
      cases opened with
      | nil => simp [scanBrackets]
      | cons o outer =>
        obtain ⟨p, tp⟩ := o
        simp only [scanBrackets]
        split
        · exact ih _ _
        · rfl
    | comment c => simp [scanBrackets]
    | reservedWord x => simp [scanBrackets]
    | _ => simp only [scanBrackets]; exact ih _ _

/-- Every bracket that is open after a scan was open before it, or is a JumpIfZero of the sequence, at its index and
with its target. -/
theorem mem_of_scanBrackets : ∀ {is : List Instr} {i : Nat} {opened rest : List (Nat × Nat)},
    scanBrackets is i opened = some rest → ∀ {p t : Nat}, (p, t) ∈ rest →
      (p, t) ∈ opened ∨ i ≤ p ∧ is[p - i]? = some (.jumpIfZero t) := by
  intro is
  induction is with
  | nil => intro i opened rest h p t hp; simp only [scanBrackets, Option.some.injEq] at h; subst h; exact .inl hp
  | cons x is ih =>
    intro i opened rest h p t hp
    have later : ∀ {o : List (Nat × Nat)}, scanBrackets is (i + 1) o = some rest → (p, t) ∈ o ∨
        i ≤ p ∧ (x :: is)[p - i]? = some (.jumpIfZero t) := by
      intro o ho
      rcases ih ho hp with h1 | ⟨h1, h2⟩
      · exact .inl h1
      · have : p - i = (p - (i + 1)) + 1 := by omega
        exact .inr ⟨by omega, by rw [this, List.getElem?_cons_succ]; exact h2⟩
    cases x with
    | jump u =>
      cases opened with
      | nil => simp [scanBrackets] at h
      | cons o outer =>
        obtain ⟨q, tq⟩ := o
        simp only [scanBrackets] at h
        split at h
        · rcases later h with h1 | h1
          · exact .inl (List.mem_cons_of_mem _ h1)
          · exact .inr h1
        · simp at h
    | jumpIfZero u =>
      simp only [scanBrackets] at h
      rcases later h with h1 | h1
      · rcases List.mem_cons.mp h1 with h2 | h2
        · obtain ⟨rfl, rfl⟩ := Prod.mk.inj h2
          exact .inr ⟨le_refl _, by simp⟩
        · exact .inl h2
      · exact .inr h1
    | comment c => simp [scanBrackets] at h
    | reservedWord y => simp [scanBrackets] at h
    | _ => exact later (by simpa only [scanBrackets] using h)

/-- The scan never opens more brackets than it reads items. -/
theorem length_scanBrackets_le : ∀ {is : List Instr} {i : Nat} {opened rest : List (Nat × Nat)},
    scanBrackets is i opened = some rest → rest.length ≤ opened.length + is.length := by
  intro is
  induction is with
  | nil => intro i opened rest h; simp only [scanBrackets, Option.some.injEq] at h; subst h; simp
  | cons x is ih =>
    intro i opened rest h
    cases x with
    | jump u =>
      cases opened with
      | nil => simp [scanBrackets] at h
      | cons o outer =>
        obtain ⟨q, tq⟩ := o
        simp only [scanBrackets] at h
        split at h
        · have := ih h; simp only [List.length_cons] at this ⊢; omega
        · simp at h
    | comment c => simp [scanBrackets] at h
    | reservedWord y => simp [scanBrackets] at h
    | _ => (simp only [scanBrackets] at h; have := ih h; simp only [List.length_cons] at this ⊢; omega)

/-- The backpatch, on the scan: the innermost bracket open after a scan, if the sequence itself opened it, takes the
new target, and nothing else of the scan changes. -/
theorem scanBrackets_set : ∀ {is : List Instr} {i : Nat} {opened outer : List (Nat × Nat)} {p t : Nat} (u : Nat),
    scanBrackets is i opened = some ((p, t) :: outer) → i ≤ p → (∀ o ∈ opened, o.1 < i) →
      scanBrackets (is.set (p - i) (.jumpIfZero u)) i opened = some ((p, u) :: outer) := by
  intro is
  induction is with
  | nil =>
    intro i opened outer p t u h hp ho
    simp only [scanBrackets, Option.some.injEq] at h
    subst h
    exact absurd (ho (p, t) (by simp)) (by simp; omega)
  | cons x is ih =>
    intro i opened outer p t u h hp ho
    by_cases hpi : p = i
    · subst hpi
      rw [Nat.sub_self, List.set_cons_zero]
      -- the item at `p` must be the JumpIfZero that opened the bracket, and it stays innermost to the end
      have key : ∀ (js : List Instr) (k : Nat) (above below above' : List (Nat × Nat)) (t' : Nat), p < k →
          (∀ o ∈ above, p < o.1) → (∀ o ∈ below, o.1 < p) → (above' = (p, t) :: outer) →
          scanBrackets js k (above ++ (p, t') :: below) = some above' →
          scanBrackets js k (above ++ (p, u) :: below) = some ((p, u) :: outer) := by
        intro js
        induction js with
        | nil =>
          intro k above below above' t' _ hab _ he hs
          simp only [scanBrackets, Option.some.injEq] at hs ⊢
          rw [he] at hs
          cases above with
          | nil => simp only [List.nil_append, List.cons.injEq] at hs ⊢; exact ⟨trivial, hs.2⟩
          | cons a above =>
            simp only [List.cons_append, List.cons.injEq] at hs
            have := hab a (by simp)
            rw [hs.1] at this
            simp at this
        | cons y js ihj =>
          intro k above below above' t' hk hab hbe he hs
          cases y with
          | jump v =>
            cases above with
            | nil =>
              -- closing the bracket at `p` would leave it out of the result
              simp only [List.nil_append, scanBrackets] at hs
              split at hs
              · have := mem_of_scanBrackets hs (p := p) (t := t) (by rw [he]; simp)
                rcases this with h1 | h1
                · exact absurd (hbe _ h1) (by simp)
                · omega
              · simp at hs
            | cons a above =>
              obtain ⟨b, tb⟩ := a
              simp only [List.cons_append, scanBrackets] at hs ⊢
              split at hs
              · rename_i hc
                rw [if_pos hc]
                exact ihj _ above below _ t' (by omega) (fun o h => hab o (by simp [h])) hbe he hs
              · simp at hs
          | jumpIfZero v =>
            simp only [scanBrackets] at hs ⊢
            exact ihj _ ((k, v) :: above) below _ t' (by omega)
              (fun o h => by rcases List.mem_cons.mp h with rfl | h; exacts [hk, hab o h]) hbe he hs
          | comment c => simp [scanBrackets] at hs
          | reservedWord z => simp [scanBrackets] at hs
          | _ =>
            simp only [scanBrackets] at hs ⊢
            exact ihj _ above below _ t' (by omega) hab hbe he hs
      cases x with
      | jumpIfZero v =>
        simp only [scanBrackets] at h ⊢
        exact key is (p + 1) [] opened _ v (by omega) (by simp) ho rfl (by simpa using h)
      | _ =>
        exfalso
        have hm := mem_of_scanBrackets h (p := p) (t := t) (by simp)
        rcases hm with h1 | ⟨-, h1⟩
        · exact absurd (ho _ h1) (by simp)
        · simp at h1
    · have hs : p - i = (p - (i + 1)) + 1 := by omega
      rw [hs, List.set_cons_succ]
      have fresh : ∀ {o : List (Nat × Nat)}, (∀ e ∈ o, e.1 < i + 1) → scanBrackets is (i + 1) o = some ((p, t) :: outer) →
          scanBrackets (is.set (p - (i + 1)) (.jumpIfZero u)) (i + 1) o = some ((p, u) :: outer) :=
        fun hb hh => ih u hh (by omega) hb
      have wider : ∀ e ∈ opened, e.1 < i + 1 := fun e he => by have := ho e he; omega
      cases x with
      | jump v =>
        cases opened with
        | nil => simp [scanBrackets] at h
        | cons o outer' =>
          obtain ⟨b, tb⟩ := o
          simp only [scanBrackets] at h ⊢
          split at h
          · rename_i hc
            rw [if_pos hc]
            exact fresh (fun e he => wider e (by simp [he])) h
          · simp at h
      | jumpIfZero v =>
        simp only [scanBrackets] at h ⊢
        exact fresh (fun e he => by rcases List.mem_cons.mp he with rfl | he; exacts [by simp, wider e he]) h
      | comment c => simp [scanBrackets] at h
      | reservedWord y => simp [scanBrackets] at h
      | _ => (simp only [scanBrackets] at h ⊢; exact fresh wider h)

/-- The indexes of open brackets fall strictly from the innermost outwards, and lie among the items read. -/
theorem scanBrackets_sorted : ∀ {is : List Instr} {i : Nat} {opened rest : List (Nat × Nat)},
    scanBrackets is i opened = some rest → (∀ o ∈ opened, o.1 < i) → (opened.map Prod.fst).Pairwise (· > ·) →
      (∀ o ∈ rest, o.1 < i + is.length) ∧ (rest.map Prod.fst).Pairwise (· > ·) := by
  intro is
  induction is with
  | nil =>
    intro i opened rest h ho hp
    simp only [scanBrackets, Option.some.injEq] at h; subst h; exact ⟨by simpa using ho, hp⟩
  | cons x is ih =>
    intro i opened rest h ho hp
    have hl : i + (x :: is).length = i + 1 + is.length := by simp; omega
    rw [hl]
    have wider : ∀ e ∈ opened, e.1 < i + 1 := fun e he => by have := ho e he; omega
    cases x with
    | jump v =>
      cases opened with
      | nil => simp [scanBrackets] at h
      | cons o outer =>
        obtain ⟨b, tb⟩ := o
        simp only [scanBrackets] at h
        split at h
        · exact ih h (fun e he => wider e (by simp [he])) (by simp at hp; exact hp.2)
        · simp at h
    | jumpIfZero v =>
      simp only [scanBrackets] at h
      refine ih h (fun e he => by rcases List.mem_cons.mp he with rfl | he; exacts [by simp, wider e he]) ?_
      rw [List.map_cons, List.pairwise_cons]
      refine ⟨fun b hb => ?_, hp⟩
      obtain ⟨e, he, rfl⟩ := List.mem_map.mp hb
      exact ho e he
    | comment c => simp [scanBrackets] at h
    | reservedWord y => simp [scanBrackets] at h
    | _ => exact ih (by simpa only [scanBrackets] using h) wider hp

end Sys2Proof
end

