-- ==== Sys2Proof/Laws/Cases.lean ====
section
/-! SUPPORT. For each phase, the one list of what an instruction's rule can do, and what the decoders and the bracket
scan say of a Program's words. Proofs about steps split on these and unfold no meaning. -/

namespace Sys2Proof.Machine

/-- A byte that is no command character is a comment (30_encoding R73). -/
theorem decodeSource_of_not_command {c : Byte} (h : c ∉ commandBytes) : decodeSource c = .comment c := by
  simp [commandBytes] at h
  simp [decodeSource, h]

theorem instrAt_eq_some_iff {paw : Nat} {ws : List Nat} {n : Nat} {i : Instr} :
    instrAt paw ws n = some i ↔ ∃ w, ws[n]? = some w ∧ decodeWord paw w = .ok i := by
  unfold instrAt
  cases ws[n]? with
  | none => simp
  | some w => cases h : decodeWord paw w <;> simp [Except.toOption, h]

/-- The instruction at an index, from the decoded Program. -/
theorem instrAt_of_decodeProgram {paw : Nat} {ws : List Nat} {is : List Instr} (hd : decodeProgram paw ws = some is) (n : Nat) :
    instrAt paw ws n = is[n]? := by
  cases hn : ws[n]? with
  | none =>
    have : is[n]? = none := by
      rw [List.getElem?_eq_none_iff] at hn ⊢; rw [decodeProgram_length hd]; exact hn
    rw [this]; simp [instrAt, hn]
  | some w =>
    obtain ⟨i, hi, hw⟩ := decodeProgram_getElem? hd hn
    rw [hi]; exact instrAt_eq_some_iff.mpr ⟨w, hn, hw⟩

theorem opField_of_decodeWord_jumpIfZero {paw w x : Nat} (h : decodeWord paw w = .ok (.jumpIfZero x)) :
    opField w = 6 := by
  unfold decodeWord at h
  split at h <;> simp_all [plainWord_eq_ok]

/-- The backpatched word is the JumpIfZero with its new target (40_compiler R107). -/
theorem decodeWord_setTarget_jumpIfZero {paw w x t : Nat} (h : decodeWord paw w = .ok (.jumpIfZero x)) (ht : t < 2 ^ paw) :
    decodeWord paw (setTarget paw w t) = .ok (.jumpIfZero t) := by
  rw [setTarget, opField_of_decodeWord_jumpIfZero h]; exact decodeWord_makeWord 6 ht

/-- Everything a compile rule can do, if it answers a next state (40_compiler R101 to R108). -/
theorem exec_compiling_cases {i : Instr} {s t : State} (hp : s.phase = .compiling) (h : exec i s = .next t) :
    (∃ op, plainOp i = some op ∧ s.plen < s.cfg.progCap ∧ t = { s with prog := s.prog ++ [op], spos := s.spos + 1 })
    ∨ (∃ x, i = .jumpIfZero x ∧ s.plen < s.cfg.progCap ∧ s.slen < s.cfg.stackDepth
        ∧ t = { s with prog := s.prog ++ [6], stk := s.plen :: s.stk, spos := s.spos + 1 })
    ∨ (∃ x, i = .jump x ∧ s.stk = [] ∧ t = { s with err := some .unmatchedClose, phase := .compileError })
    ∨ (∃ x p rest v, i = .jump x ∧ s.stk = p :: rest ∧ s.plen < s.cfg.progCap
        ∧ (s.prog ++ [makeWord s.cfg.paw 5 p])[p]? = some v
        ∧ t = { s with
                prog := (s.prog ++ [makeWord s.cfg.paw 5 p]).set p (setTarget s.cfg.paw v (s.plen + 1))
                stk := rest
                spos := s.spos + 1 })
    ∨ (∃ c, i = .comment c ∧ t = { s with spos := s.spos + 1 }) := by
  cases hpo : plainOp i with
  | some op => exact .inl ⟨op, rfl, (exec_plain_compiling hpo hp).mp h⟩
  | none =>
    refine .inr ?_
    cases i <;> simp [plainOp] at hpo
    case jumpIfZero x => exact .inl ⟨x, rfl, (exec_open_compiling hp).mp h⟩
    case jump x =>
      refine .inr ?_
      cases hs : s.stk with
      | nil =>
        rw [exec_close_compiling_nil hp hs, Host.Outcome.next.injEq] at h; subst h; left; simp [hs]
      | cons p rest =>
        obtain ⟨h1, v, hv, ht⟩ := (exec_close_compiling_cons hp hs).mp h
        exact .inr (.inl ⟨x, p, rest, v, rfl, rfl, h1, hv, ht⟩)
    case comment c =>
      rw [exec_comment_compiling c hp, Host.Outcome.next.injEq] at h
      exact .inr (.inr (.inr ⟨c, rfl, h.symm⟩))
    case reservedWord x => simp [exec_reservedWord] at h

/-- Everything an execute rule can do, if it answers a next state (41_dispatch R124). -/
theorem exec_running_cases {i : Instr} {s t : State} (hp : s.phase = .running) (h : exec i s = .next t) :
    (∃ f : Byte → Byte, (i = .increment ∨ i = .decrement) ∧ s.dp < s.cfg.tapeCells
        ∧ t = { s with tape := Memory.write s.tape s.dp (f (Memory.read s.tape s.dp)), ip := s.ip + 1 })
    ∨ (i = .moveRight ∧ s.dp + 1 < s.cfg.tapeCells ∧ t = { s with dp := s.dp + 1, ip := s.ip + 1 })
    ∨ (i = .moveLeft ∧ 0 < s.dp ∧ t = { s with dp := s.dp - 1, ip := s.ip + 1 })
    ∨ ((i = .moveRight ∧ s.cfg.tapeCells ≤ s.dp + 1 ∨ i = .moveLeft ∧ s.dp = 0)
        ∧ t = { s with err := some .outOfBounds, phase := .runError })
    ∨ (i = .output ∧ s.dp < s.cfg.tapeCells ∧ t = { s with out := s.out ++ [Memory.read s.tape s.dp], ip := s.ip + 1 })
    ∨ (∃ x, i = .jump x ∧ t = { s with ip := x })
    ∨ (∃ x, i = .jumpIfZero x ∧ s.dp < s.cfg.tapeCells
        ∧ t = { s with ip := if Memory.read s.tape s.dp = 0 then x else s.ip + 1 }) := by
  cases i with
  | increment => have := (exec_increment_running hp).mp h; exact .inl ⟨fun v => v + 1, .inl rfl, this⟩
  | decrement => have := (exec_decrement_running hp).mp h; exact .inl ⟨fun v => v + 255, .inr rfl, this⟩
  | moveRight =>
    rw [exec_moveRight_running hp] at h
    split at h <;> simp only [raiseError, Host.Outcome.next.injEq] at h <;> subst h
    · exact .inr (.inr (.inr (.inl ⟨.inl ⟨rfl, by assumption⟩, rfl⟩)))
    · exact .inr (.inl ⟨rfl, by omega, rfl⟩)
  | moveLeft =>
    rw [exec_moveLeft_running hp] at h
    split at h <;> simp only [raiseError, Host.Outcome.next.injEq] at h <;> subst h
    · exact .inr (.inr (.inr (.inl ⟨.inr ⟨rfl, by assumption⟩, rfl⟩)))
    · exact .inr (.inr (.inl ⟨rfl, by omega, rfl⟩))
  | output => have := (exec_output_running hp).mp h; exact .inr (.inr (.inr (.inr (.inl ⟨rfl, this⟩))))
  | jumpIfZero x =>
    have := (exec_jumpIfZero_running hp).mp h
    exact .inr (.inr (.inr (.inr (.inr (.inr ⟨x, rfl, this⟩)))))
  | jump x =>
    rw [exec_jump_running x hp, Host.Outcome.next.injEq] at h
    exact .inr (.inr (.inr (.inr (.inr (.inl ⟨x, rfl, h.symm⟩)))))
  | comment c => rw [exec_comment_running c hp] at h; simp at h
  | reservedWord x => simp [exec_reservedWord] at h

/-- What a scan that ends with nothing open says of every bracket it met or was given: its partner and both
targets (30_encoding R80). -/
theorem scanBrackets_pairs : ∀ {is : List Instr} {i : Nat} {opened rest : List (Nat × Nat)},
    scanBrackets is i opened = some rest → rest = [] → (∀ o ∈ opened, o.1 < i) →
    (∀ k t, is[k]? = some (.jumpIfZero t) → i + k + 2 ≤ t ∧ t ≤ i + is.length
        ∧ ∃ m, i + m + 1 = t ∧ is[m]? = some (.jump (i + k)))
    ∧ (∀ k p, is[k]? = some (.jump p) →
        (i ≤ p ∧ p < i + k ∧ is[p - i]? = some (.jumpIfZero (i + k + 1))) ∨ (p, i + k + 1) ∈ opened)
    ∧ (∀ o ∈ opened, i + 1 ≤ o.2 ∧ o.2 ≤ i + is.length
        ∧ ∃ m, i + m + 1 = o.2 ∧ is[m]? = some (.jump o.1)) := by
  intro is
  induction is with
  | nil =>
    intro i opened rest h hr ho
    simp only [scanBrackets, Option.some.injEq] at h; subst h; subst hr; simp
  | cons x is ih =>
    intro i opened rest h hr ho
    have wider : ∀ e ∈ opened, e.1 < i + 1 := fun e he => by have := ho e he; omega
    have plain : ∀ {o : List (Nat × Nat)}, (∀ e ∈ o, e.1 < i + 1) → scanBrackets is (i + 1) o = some rest → _ := fun hb hh => ih hh hr hb
    have lift1 : ∀ {o : List (Nat × Nat)}, (∀ e ∈ o, e.1 < i + 1) → scanBrackets is (i + 1) o = some rest →
        (∀ k t, is[k]? = some (.jumpIfZero t) → i + (k + 1) + 2 ≤ t ∧ t ≤ i + (x :: is).length ∧ ∃ m, i + m + 1 = t ∧ (x :: is)[m]? = some (.jump (i + (k + 1)))) := by
      intro o hb hh k t hk
      obtain ⟨a, b, m, c, d⟩ := (plain hb hh).1 k t hk
      refine ⟨by omega, by simp; omega, m + 1, by omega, ?_⟩
      rw [List.getElem?_cons_succ, d]; congr 2; omega
    have lift3 : ∀ {o : List (Nat × Nat)}, (∀ e ∈ o, e.1 < i + 1) → scanBrackets is (i + 1) o = some rest →
        ∀ e ∈ o, i + 2 ≤ e.2 ∧ e.2 ≤ i + (x :: is).length ∧ ∃ m, i + m + 1 = e.2 ∧ (x :: is)[m]? = some (.jump e.1) := by
      intro o hb hh e he
      obtain ⟨a, b, m, c, d⟩ := (plain hb hh).2.2 e he
      exact ⟨by omega, by simp; omega, m + 1, by omega, by rw [List.getElem?_cons_succ, d]⟩
    have lift2 : ∀ {o : List (Nat × Nat)}, (∀ e ∈ o, e.1 < i + 1) → scanBrackets is (i + 1) o = some rest →
        ∀ k p, is[k]? = some (.jump p) → (i + 1 ≤ p ∧ p < i + (k + 1) ∧ (x :: is)[p - i]? = some (.jumpIfZero (i + (k + 1) + 1))) ∨ (p, i + (k + 1) + 1) ∈ o := by
      intro o hb hh k p hk
      rcases (plain hb hh).2.1 k p hk with ⟨a, b, c⟩ | c
      · left
        refine ⟨a, by omega, ?_⟩
        have : p - i = (p - (i + 1)) + 1 := by omega
        rw [this, List.getElem?_cons_succ, c]; congr 2; omega
      · right
        have : i + 1 + k + 1 = i + (k + 1) + 1 := by omega
        rwa [this] at c
    have generic : scanBrackets is (i + 1) opened = some rest → (∀ t, x ≠ .jumpIfZero t) → (∀ t, x ≠ .jump t) → _ := fun hh h1 h2 =>
      (⟨fun k t hk => by
          cases k with
          | zero => simp at hk; exact absurd hk (h1 t)
          | succ k => rw [List.getElem?_cons_succ] at hk; exact lift1 wider hh k t hk,
        fun k p hk => by
          cases k with
          | zero => simp at hk; exact absurd hk (h2 p)
          | succ k => rw [List.getElem?_cons_succ] at hk; exact (lift2 wider hh k p hk).imp (fun ⟨a, b, c⟩ => ⟨by omega, b, c⟩) id,
        fun o ho' => by obtain ⟨a, b, c⟩ := lift3 wider hh o ho'; exact ⟨by omega, b, c⟩⟩ :
      (∀ k t, (x :: is)[k]? = some (.jumpIfZero t) → i + k + 2 ≤ t ∧ t ≤ i + (x :: is).length ∧ ∃ m, i + m + 1 = t ∧ (x :: is)[m]? = some (.jump (i + k)))
      ∧ (∀ k p, (x :: is)[k]? = some (.jump p) → (i ≤ p ∧ p < i + k ∧ (x :: is)[p - i]? = some (.jumpIfZero (i + k + 1))) ∨ (p, i + k + 1) ∈ opened)
      ∧ (∀ o ∈ opened, i + 1 ≤ o.2 ∧ o.2 ≤ i + (x :: is).length ∧ ∃ m, i + m + 1 = o.2 ∧ (x :: is)[m]? = some (.jump o.1)))
    cases x with
    | jump v =>
      cases opened with
      | nil => simp [scanBrackets] at h
      | cons o outer =>
        obtain ⟨b, tb⟩ := o
        simp only [scanBrackets] at h
        split at h
        · rename_i hc
          obtain ⟨rfl, rfl⟩ := hc
          have wo : ∀ e ∈ outer, e.1 < i + 1 := fun e he => wider e (by simp [he])
          refine ⟨fun k t hk => ?_, fun k p hk => ?_, fun o ho' => ?_⟩
          · cases k with
            | zero => simp at hk
            | succ k => rw [List.getElem?_cons_succ] at hk; exact lift1 wo h k t hk
          · cases k with
            | zero => simp at hk; subst hk; right; simp
            | succ k =>
              rw [List.getElem?_cons_succ] at hk
              exact (lift2 wo h k p hk).imp (fun ⟨a, b, c⟩ => ⟨by omega, b, c⟩) (fun hm => List.mem_cons_of_mem _ hm)
          · rcases List.mem_cons.mp ho' with rfl | ho''
            · exact ⟨by simp, by simp, 0, by simp, by simp⟩
            · obtain ⟨a, b, c⟩ := lift3 wo h o ho''; exact ⟨by omega, b, c⟩
        · simp at h
    | jumpIfZero v =>
      simp only [scanBrackets] at h
      have wo : ∀ e ∈ ((i, v) :: opened), e.1 < i + 1 := fun e he => by rcases List.mem_cons.mp he with rfl | he; exacts [by simp, wider e he]
      refine ⟨fun k t hk => ?_, fun k p hk => ?_, fun o ho' => ?_⟩
      · cases k with
        | zero =>
          simp at hk; subst hk
          exact lift3 wo h (i, v) (by simp)
        | succ k => rw [List.getElem?_cons_succ] at hk; exact lift1 wo h k t hk
      · cases k with
        | zero => simp at hk
        | succ k =>
          rw [List.getElem?_cons_succ] at hk
          rcases lift2 wo h k p hk with ⟨a, b, c⟩ | c
          · exact .inl ⟨by omega, b, c⟩
          · rcases List.mem_cons.mp c with c | c
            · obtain ⟨rfl, c⟩ := Prod.mk.inj c
              exact .inl ⟨le_refl _, by omega, by simp [← c]⟩
            · exact .inr c
      · obtain ⟨a, b, c⟩ := lift3 wo h o (by simp [ho']); exact ⟨by omega, b, c⟩
    | comment c => simp [scanBrackets] at h
    | reservedWord y => simp [scanBrackets] at h
    | _ => exact generic (by simpa only [scanBrackets] using h) (by simp) (by simp)

end Sys2Proof.Machine
end

