-- ==== Sys2Proof/Laws/PerInstr.lean ====
section
/-! SUPPORT. Statements made for each constructor of Instr. The family OpField: the op field of an instruction's Program
word is the number that 30_encoding R76 gives it. -/

namespace Sys2Proof.Laws.OpField

/-- The `op` column of 30_encoding R76. A comment has no Program word (R81). -/
def tableOp : Instr → Option (Fin 8)
  | .increment => some 0
  | .decrement => some 1
  | .moveRight => some 2
  | .moveLeft => some 3
  | .output => some 4
  | .jump _ => some 5
  | .jumpIfZero _ => some 6
  | .reservedWord _ => some 7
  | .comment _ => none

/-- The op field of `i`'s word, for every `PAW`, is the table's; and `i` has a word exactly if the table has an op. -/
def Statement (i : Instr) : Prop := ∀ paw, (encodeWord paw i).map opField = tableOp i

theorem increment : Statement .increment := fun paw => congrArg some (opField_makeWord paw 0 0)

theorem decrement : Statement .decrement := fun paw => congrArg some (opField_makeWord paw 1 0)

theorem moveRight : Statement .moveRight := fun paw => congrArg some (opField_makeWord paw 2 0)

theorem moveLeft : Statement .moveLeft := fun paw => congrArg some (opField_makeWord paw 3 0)

theorem output : Statement .output := fun paw => congrArg some (opField_makeWord paw 4 0)

theorem jumpIfZero (target : Nat) : Statement (.jumpIfZero target) := fun paw =>
  congrArg some (opField_makeWord paw 6 target)

theorem jump (target : Nat) : Statement (.jump target) := fun paw => congrArg some (opField_makeWord paw 5 target)

theorem comment (byte : Byte) : Statement (.comment byte) := fun _ => rfl

theorem reservedWord (x : Nat) : Statement (.reservedWord x) := fun paw => congrArg some (opField_makeWord paw 7 x)

end Sys2Proof.Laws.OpField
end

