-- ==== Sys2Proof/Tests/Slice0.lean ====
section
/-! SUPPORT. The model's own tests. Expected values come from spec/ (the vector or rule is named at each test); then one
named witness for each obligation that has hypotheses, clause by clause, at boundary values. -/

namespace Sys2Proof.Tests

open Sys2Proof Sys2Proof.Machine

/-! ### Helpers -/

/-- The next state of an outcome, if it has one. -/
def next? : Result → Option State
  | .next s => some s
  | .fault _ => none
  | .refused _ => none

/-- The refusal of an outcome, if it is one. -/
def refusal? : Result → Option Refusal
  | .next _ => none
  | .fault _ => none
  | .refused r => some r

/-- A small machine: four cells, eight Program words (`PAW = 4`), sixteen source bytes. -/
def tiny : Config := { tapeCells := 4, progCap := 8, srcCap := 16, flushPolicy := .incremental }

/-- The small machine under the `batch` policy. -/
def tinyBatch : Config := { tiny with flushPolicy := .batch }

/-- A run of `prog` on the small machine. -/
def running (prog : List Nat) (ip dp : Nat) (tape : Memory) : State :=
  { State.powerOn tiny with prog := prog, ip := ip, dp := dp, tape := tape, phase := .running }

/-- A compile on the small machine. -/
def compiling (src : List Byte) (spos : Nat) (prog stk : List Nat) : State :=
  { State.powerOn tiny with src := src, spos := spos, prog := prog, stk := stk, phase := .compiling }

/-- The small machine with the host about to do `op`. -/
def hosted (op : HostOp) (p : Phase) : State := { State.powerOn tiny with phase := p, host := [op] }

/-- A good state from a list of decidable facts and the instructions its words hold. -/
theorem inv_of_facts {s : State} (is : List Instr)
    (h : 0 < s.cfg.tapeCells ∧ s.dp < s.cfg.tapeCells ∧ Memory.wf s.tape = true ∧ Memory.below s.cfg.tapeCells s.tape = true
      ∧ s.plen ≤ s.cfg.progCap ∧ (∀ w ∈ s.prog, w < 2 ^ s.cfg.wordBits) ∧ s.src.length ≤ s.cfg.srcCap
      ∧ s.spos ≤ s.src.length ∧ s.phase.allowsErr s.err = true ∧ s.delivered ≤ s.out.length
      ∧ s.out.take s.delivered <:+ s.received
      ∧ (s.phase = .done → s.cfg.flushPolicy = .incremental → s.delivered = s.out.length))
    (hp : decodeProgram s.cfg.paw s.prog = some is
      ∧ is.map Instr.sourceForm = ((s.src.take s.spos).filter isCommand).map decodeSource
      ∧ (s.phase = .compiling → scanBrackets is 0 [] = some (s.stk.map fun p => (p, 0)))
      ∧ (s.phase.hasProgram = true → scanBrackets is 0 [] = some [] ∧ s.stk = [] ∧ s.spos = s.src.length))
    (hip : s.ipInPlace) : s.Inv :=
  ⟨h.1, h.2.1, h.2.2.1, h.2.2.2.1, h.2.2.2.2.1, h.2.2.2.2.2.1, h.2.2.2.2.2.2.1, h.2.2.2.2.2.2.2.1, h.2.2.2.2.2.2.2.2.1,
    hip, ⟨is, hp⟩, h.2.2.2.2.2.2.2.2.2.1, h.2.2.2.2.2.2.2.2.2.2.1, h.2.2.2.2.2.2.2.2.2.2.2⟩

/-! ### WellFormed: an ill-formed term for each check -/

theorem test_wf_largest_target : Instr.wf 13 (.jump 8191) = true := by decide

theorem test_wf_refuses_wide_jump_target : Instr.wf 13 (.jump 8192) = false := by decide

theorem test_wf_refuses_wide_jumpIfZero_target : Instr.wf 13 (.jumpIfZero 8192) = false := by decide

theorem test_wf_refuses_wide_reserved_word : Instr.wf 13 (.reservedWord 8192) = false := by decide

theorem test_wf_refuses_command_byte_as_comment : Instr.wf 13 (.comment 0x2B#8) = false := by decide

/-- 40_compiler R114, vector C4: `[[]]`. -/
theorem test_program_accepts_nested_loops :
    wellFormedInstrs [.jumpIfZero 4, .jumpIfZero 3, .jump 1, .jump 0] = true := by decide

/-- 30_encoding R80, condition 3: a closing bracket with none open. -/
theorem test_program_refuses_stray_close : wellFormedInstrs [.jump 0] = false := by decide

/-- 30_encoding R80, condition 3: an opening bracket never closed. -/
theorem test_program_refuses_unclosed_loop : wellFormedInstrs [.jumpIfZero 1] = false := by decide

/-- 30_encoding R80, condition 4, and 90_conflicts C3: a Jump to the word after its JumpIfZero. -/
theorem test_program_refuses_jump_past_head :
    wellFormedInstrs [.increment, .jumpIfZero 4, .decrement, .jump 2] = false := by decide

/-- 30_encoding R80, condition 4: a JumpIfZero to its Jump instead of the word after it. -/
theorem test_program_refuses_jumpIfZero_onto_close : wellFormedInstrs [.jumpIfZero 1, .jump 0] = false := by decide

/-- 30_encoding R80, condition 1: no comment and no reserved word. -/
theorem test_program_refuses_non_instructions :
    wellFormedInstrs [.comment 0x61#8] = false ∧ wellFormedInstrs [.reservedWord 0] = false := by decide

/-- 30_encoding R80, condition 2: word 0x0008 is Increment with target 1. -/
theorem test_words_refuse_target_in_plain_word : wellFormedWords 13 [0x0008] = false := by decide

/-! ### Decode: words written out from the spec's encoding -/

/-- 30_encoding R71, the byte of each command character in binary. -/
theorem test_decode_source_bytes :
    [0b00101011#8, 0b00101101#8, 0b00111110#8, 0b00111100#8, 0b00101110#8, 0b01011011#8, 0b01011101#8].map decodeSource
      = [.increment, .decrement, .moveRight, .moveLeft, .output, .jumpIfZero 0, .jump 0] := by decide

/-- 30_encoding R73: the comma, NUL and a byte with the top bit set are comments. -/
theorem test_decode_comment_bytes :
    [0x2C#8, 0x00#8, 0xAB#8].map decodeSource = [.comment 0x2C#8, .comment 0x00#8, .comment 0xAB#8] := by decide

/-- 30_encoding R76 and vector C4: `[[]]` and the five plain words. -/
theorem test_decode_program_words :
    decodeProgram 13
        [0b0000000000000000, 0b0000000000000001, 0b0000000000000010, 0b0000000000000011, 0b0000000000000100,
          0b0000000000100110, 0b0000000000011110, 0b0000000000001101, 0b0000000000000101]
      = some [.increment, .decrement, .moveRight, .moveLeft, .output, .jumpIfZero 4, .jumpIfZero 3, .jump 1, .jump 0] := by
  decide

/-- 30_encoding R76: the widest targets, and the reserved word with its upper bits. -/
theorem test_decode_widest_words :
    decodeProgram 13 [0b1111111111111101, 0b1111111111111110, 0b1111111111111111]
      = some [.jump 8191, .jumpIfZero 8191, .reservedWord 8191] := by decide

/-- 30_encoding R79: a plain word with a target is turned down. -/
theorem test_decode_rejects_target_in_plain_word : decodeWord 13 0b0000000000001100 = .error (.nonZeroTarget 4) := by
  decide

/-- 30_encoding R83: the four words of `+[-]` are encoded as the example writes them. -/
theorem test_encode_worked_example :
    [Instr.increment, .jumpIfZero 4, .decrement, .jump 1].map (encodeWord 13)
      = [some 0x0000, some 0x0026, some 0x0001, some 0x000D] := by decide

/-- spec/opcode_table.json: `[` as its row's 8 bits, and the reserved word as its row's 16. -/
theorem test_decode_table_rows :
    decodeTableWord 8 0x5B = some (.jumpIfZero 0) ∧ decodeTableWord 16 0xFFFF = some (.reservedWord 8191) := by decide

/-- 00_scope R9: `PAW` is 13 at `PROG_CAP = 8191`, `DAW` is 15 at 30000 cells. -/
theorem test_standard_widths :
    Config.standard.paw = 13 ∧ Config.standard.daw = 15 ∧ Config.standard.wordBits = 16 := by decide

/-! ### One step of each instruction -/

/-- Vector A4: 0xFF wraps to 0x00, and `ip` advances. -/
theorem test_increment_wraps :
    (next? (step (running [0] 0 1 [(1, 0xFF#8)]))).map (fun t => (t.tape, t.ip, t.err)) = some ([], 1, none) := by decide

/-- Vector A2. -/
theorem test_increment_carries_into_top_bit :
    (next? (step (running [0] 0 1 [(1, 0x7F#8)]))).map (fun t => (t.tape, t.dp)) = some ([(1, 0x80#8)], 1) := by decide

/-- Vector A5: 0x00 wraps to 0xFF, beside a cell that stays. -/
theorem test_decrement_wraps :
    (next? (step (running [1] 0 1 [(0, 0x07#8)]))).map (fun t => (t.tape, t.ip)) = some ([(0, 0x07#8), (1, 0xFF#8)], 1) := by
  decide

/-- Vector A7. -/
theorem test_decrement_borrows_from_top_bit :
    (next? (step (running [1] 0 0 [(0, 0x80#8)]))).map (fun t => t.tape) = some [(0, 0x7F#8)] := by decide

/-- Vector P-2 on four cells: the last move that stays on the tape. -/
theorem test_moveRight_reaches_last_cell :
    (next? (step (running [2] 0 2 []))).map (fun t => (t.dp, t.ip, t.phase)) = some (3, 1, .running) := by decide

/-- Vector P-3 on four cells: OutOfBounds, `dp` and `ip` unchanged. -/
theorem test_moveRight_faults_at_last_cell :
    (next? (step (running [2] 0 3 []))).map (fun t => (t.dp, t.ip, t.phase, t.err, t.statusByte))
      = some (3, 0, .runError, some .outOfBounds, 0b00011110#8) := by decide

/-- Vector P-4. -/
theorem test_moveLeft_reaches_first_cell :
    (next? (step (running [3] 0 1 []))).map (fun t => (t.dp, t.ip, t.phase)) = some (0, 1, .running) := by decide

/-- Vector P-5. -/
theorem test_moveLeft_faults_at_first_cell :
    (next? (step (running [3] 0 0 []))).map (fun t => (t.dp, t.ip, t.phase, t.err))
      = some (0, 0, .runError, some .outOfBounds) := by decide

/-- Vector O1: a zero byte is emitted. -/
theorem test_output_emits_zero : (next? (step (running [4] 0 0 []))).map (fun t => (t.out, t.ip)) = some ([0x00#8], 1) := by
  decide

/-- Vector O2: the byte goes to the end of `OUT`. -/
theorem test_output_appends :
    (next? (step { running [4] 0 0 [(0, 0xFF#8)] with out := [0x01#8] })).map (fun t => (t.out, t.tape))
      = some ([0x01#8, 0xFF#8], [(0, 0xFF#8)]) := by decide

/-- Vectors J3 and J5: taken on 0, not taken on 0xFF. -/
theorem test_jumpIfZero_tests_cell :
    (next? (step (running [0, 0x26, 1, 0x0D] 1 0 []))).map (fun t => t.ip) = some 4
      ∧ (next? (step (running [0, 0x26, 1, 0x0D] 1 0 [(0, 0xFF#8)]))).map (fun t => t.ip) = some 2 := by decide

/-- Vector J1. -/
theorem test_jump_goes_to_target :
    (next? (step (running [0, 0x26, 1, 0x0D] 3 0 [(0, 0x05#8)]))).map (fun t => (t.ip, t.tape)) = some (1, [(0, 0x05#8)]) := by
  decide

/-- Vector D-6. -/
theorem test_reserved_word_refused : refusal? (step (running [0x07] 0 0 [])) = some .illFormedProgram := by decide

/-- Vector C1, the second byte: `-` compiles to word 0x0001. -/
theorem test_compile_plain_character :
    (next? (step (compiling [0x2B#8, 0x2D#8] 1 [0] []))).map (fun t => (t.prog, t.spos, t.phase))
      = some ([0, 1], 2, .compiling) := by decide

/-- 40_compiler R106, its example. -/
theorem test_compile_open_pushes :
    (next? (step (compiling [0x5B#8] 0 [] []))).map (fun t => (t.prog, t.stk, t.spos)) = some ([6], [0], 1) := by decide

/-- Vector C14, its last byte: the Jump to 1, and the JumpIfZero backpatched to 4. -/
theorem test_compile_close_backpatches :
    (next? (step (compiling [0x2B#8, 0x5B#8, 0x2D#8, 0x5D#8] 3 [0, 6, 1] [1]))).map (fun t => (t.prog, t.stk, t.spos))
      = some ([0, 0x26, 1, 0x0D], [], 4) := by decide

/-- Vector C8: a stray `]`, with `SPOS` left at it. -/
theorem test_compile_stray_close :
    (next? (step (compiling [0x5D#8] 0 [] []))).map (fun t => (t.spos, t.statusByte)) = some (0, 0b00001101#8) := by decide

/-- Vector C11: `[` alone fails at the end of the pass. -/
theorem test_compile_unterminated_loop :
    (next? (step (compiling [0x5B#8] 1 [6] [0]))).map (fun t => (t.spos, t.statusByte)) = some (1, 0b00010101#8) := by decide

/-- Vector C6: the comma emits nothing. -/
theorem test_compile_comment :
    (next? (step (compiling [0x2C#8] 0 [] []))).map (fun t => (t.prog, t.spos)) = some ([], 1) := by decide

/-- Vector C7: the empty source is READY with an empty Program. -/
theorem test_compile_empty_source :
    (next? (step (compiling [] 0 [] []))).map (fun t => (t.phase, t.plen)) = some (.ready, 0) := by decide

/-- Vector C16 at `PROG_CAP = 8`. -/
theorem test_compile_full_program_refused :
    refusal? (step (compiling [0x2B#8] 0 [0, 0, 0, 0, 0, 0, 0, 0] [])) = some .programCapacity := by decide

/-- Vector D-1: an empty Program ends at its first step. -/
theorem test_empty_program_is_done :
    (next? (step (running [] 0 0 []))).map (fun t => (t.phase, t.out)) = some (.done, []) := by decide

/-- Vectors D-2 and D-5. -/
theorem test_host_protocol :
    refusal? (step (hosted .run .idle)) = some .hostProtocol
      ∧ refusal? (step (hosted (.compile []) .running)) = some .hostProtocol := by decide

/-- 41_dispatch R122: RUN clears the VM's state. -/
theorem test_run_clears :
    (next? (step { hosted .run .runError with ip := 2, dp := 3, tape := [(0, 1#8)], out := [1#8] })).map
        (fun t => (t.ip, t.dp, t.tape, t.out)) = some (0, 0, [], []) := by decide

/-- Placing an instruction where the next step fetches it: `+` as a source byte, Decrement as a word. -/
theorem test_withFetchWord_runs :
    (next? (step (State.reset.withFetchWord 8 0x2B))).map (fun t => t.prog) = some [0]
      ∧ (next? (step (State.reset.withFetchWord 16 0x0001))).map (fun t => t.tape) = some [(0, 0xFF#8)] := by decide

/-! ### Witnesses: encoding and the step -/

theorem witness_SourceBytesDecodeAsTabled : 0x2C#8 ∉ commandBytes := by decide

theorem witness_DecodeOfEncodedWordGivesInstruction :
    (Instr.wf 13 (.jump 8191) = true ∧ encodeWord 13 (.jump 8191) = some 0xFFFD)
      ∧ (Instr.wf 0 (.jumpIfZero 0) = true ∧ encodeWord 0 (.jumpIfZero 0) = some 6) := by decide

theorem witness_EncodeOfDecodedWordGivesWord :
    0xFFFD < 2 ^ (13 + 3) ∧ decodeWord 13 0xFFFD = .ok (.jump 8191) := by decide

theorem witness_SourceEncodingRoundTrips :
    Instr.wf 13 (.jumpIfZero 8191) = true ∧ encodeSource (.jumpIfZero 8191) = some 0x5B#8 := by decide

theorem witness_IllegalWordsAreRefused :
    (4 ≤ 4 ∧ 0 < 8191 ∧ 8191 < 2 ^ 13) ∧ (0 ≤ 4 ∧ 0 < 1 ∧ 1 < 2 ^ 13)
      ∧ ((running [7] 0 0 []).host = [] ∧ (running [7] 0 0 []).prog[0]? = some 7 ∧ 7 % 8 = 7)
      ∧ ((running [8] 0 0 []).prog[0]? = some 8 ∧ 8 % 8 ≤ 4 ∧ targetField tiny.paw 8 ≠ 0) := by decide

theorem witness_RunningStepExecutesFetchedWord :
    (running [0] 0 0 []).host = [] ∧ (running [0] 0 0 []).phase = .running ∧ (running [0] 0 0 []).prog[0]? = some 0
      ∧ decodeWord tiny.paw 0 = .ok .increment := by decide

/-- The other form of `hostWaits`. -/
theorem witness_hostWaits : (hosted .wait .running).host.head? = some .wait := by decide

theorem witness_CompilingStepAppliesSelectedRule :
    (compiling [0x5D#8] 0 [] []).host = [] ∧ (compiling [0x5D#8] 0 [] []).phase = .compiling
      ∧ (compiling [0x5D#8] 0 [] []).src[0]? = some 0x5D#8 := by decide

theorem witness_TerminalStepOnlySetsDone :
    ((running [] 0 0 []).host = [] ∧ (running [] 0 0 []).ip = (running [] 0 0 []).plen)
      ∧ (running [0] 1 3 [(0, 1#8)]).ip = (running [0] 1 3 [(0, 1#8)]).plen := by decide

theorem witness_RestingCoreHoldsItsState :
    Phase.atRest .idle = true ∧ Phase.atRest .ready = true ∧ Phase.atRest .done = true
      ∧ Phase.atRest .compileError = true ∧ Phase.atRest .runError = true ∧ (State.powerOn tiny).host = [] := by decide

/-! ### Witnesses: execute rules -/

/-- For IncrementAddsOneModulo256 and DecrementSubtractsOneModulo256: at the last cell, with a canonical tape. -/
theorem witness_IncrementAddsOneModulo256 :
    (running [0] 0 3 [(3, 0xFF#8)]).phase = .running ∧ (running [0] 0 3 [(3, 0xFF#8)]).dp < tiny.tapeCells
      ∧ Memory.wf (running [0] 0 3 [(3, 0xFF#8)]).tape = true := by decide

theorem witness_MoveRightMovesOrFaults :
    (running [2] 0 2 []).dp + 1 < tiny.tapeCells ∧ tiny.tapeCells ≤ (running [2] 0 3 []).dp + 1 := by decide

theorem witness_MoveLeftMovesOrFaults : 0 < (running [3] 0 1 []).dp ∧ (running [3] 0 0 []).dp = 0 := by decide

/-- For OutputAppendsCurrentCell, JumpWritesItsTarget and JumpIfZeroTestsCurrentCell: both outcomes of the test, at the
last cell, and the widest target. -/
theorem witness_JumpIfZeroTestsCurrentCell :
    (running [6] 0 3 []).phase = .running ∧ (running [6] 0 3 []).dp < tiny.tapeCells
      ∧ Memory.read (running [6] 0 3 []).tape 3 = 0 ∧ Memory.read (running [6] 0 3 [(3, 1#8)]).tape 3 ≠ 0
      ∧ 15 < 2 ^ tiny.paw := by decide

/-- A move that faults, and an instruction that does not. -/
theorem witness_OnlyEdgeMovesRaiseRuntimeErrors :
    (next? (exec .moveRight (running [] 0 3 []))).map (fun t => t.phase) = some .runError
      ∧ (next? (exec .moveLeft (running [] 0 0 []))).map (fun t => t.phase) = some .runError
      ∧ (next? (exec .output (running [] 0 0 []))).map (fun t => t.phase) = some .running := by decide

theorem witness_ErrorEntryChangesStatusAlone :
    (next? (step (compiling [0x5D#8] 0 [] []))).map (fun t => t.phase) = some .compileError
      ∧ (next? (step (compiling [] 0 [] [0]))).map (fun t => t.phase) = some .compileError
      ∧ (next? (step (running [2] 0 3 []))).map (fun t => t.phase) = some .runError := by decide

/-! ### Witnesses: compile rules -/

theorem witness_PlainCharactersEmitOneWord :
    (0x2E#8, 4) ∈ [(0x2B#8, 0), (0x2D#8, 1), (0x3E#8, 2), (0x3C#8, 3), (0x2E#8, 4)]
      ∧ (compiling [0x2E#8] 0 [0, 0, 0, 0, 0, 0, 0] []).src[0]? = some 0x2E#8
      ∧ (compiling [0x2E#8] 0 [0, 0, 0, 0, 0, 0, 0] []).plen < tiny.progCap := by decide

theorem witness_OpenBracketPushesAndEmits :
    (compiling [0x5B#8] 0 [6, 6, 6, 6, 6, 6, 6] [6, 5, 4, 3, 2, 1, 0]).src[0]? = some 0x5B#8
      ∧ (compiling [0x5B#8] 0 [6, 6, 6, 6, 6, 6, 6] [6, 5, 4, 3, 2, 1, 0]).plen < tiny.progCap
      ∧ (compiling [0x5B#8] 0 [6, 6, 6, 6, 6, 6, 6] [6, 5, 4, 3, 2, 1, 0]).slen
          ≤ (compiling [0x5B#8] 0 [6, 6, 6, 6, 6, 6, 6] [6, 5, 4, 3, 2, 1, 0]).plen := by decide

theorem witness_CloseBracketEmitsAndBackpatches :
    ((compiling [0x5D#8] 0 [] []).src[0]? = some 0x5D#8 ∧ (compiling [0x5D#8] 0 [] []).stk = [])
      ∧ ((compiling [0x5D#8] 0 [6] [0]).stk = [0] ∧ instrAt tiny.paw (compiling [0x5D#8] 0 [6] [0]).prog 0 = some (.jumpIfZero 0)
        ∧ (compiling [0x5D#8] 0 [6] [0]).plen < tiny.progCap) := by decide

theorem witness_CommentBytesOnlyAdvanceSpos :
    0xFF#8 ∉ commandBytes ∧ (compiling [0xFF#8] 0 [] []).src[0]? = some 0xFF#8 := by decide

theorem witness_EndOfPassChecksOpenBrackets :
    ((compiling [] 0 [] []).spos = 0 ∧ (compiling [] 0 [] []).src.length = 0 ∧ (compiling [] 0 [] []).stk = [])
      ∧ ((compiling [0x5B#8] 1 [6] [0]).spos = (compiling [0x5B#8] 1 [6] [0]).src.length
        ∧ (compiling [0x5B#8] 1 [6] [0]).stk ≠ []) := by decide

theorem witness_FullProgramMemoryRefusesEmit :
    0x5D#8 ∈ commandBytes ∧ 0x2B#8 ∈ commandBytes
      ∧ (compiling [0x5D#8] 0 [6, 0, 0, 0, 0, 0, 0, 0] [0]).plen = tiny.progCap
      ∧ (compiling [0x5D#8] 0 [6, 0, 0, 0, 0, 0, 0, 0] [0]).stk ≠ [] := by decide

/-! ### Witnesses: host operations -/

theorem witness_CompileCommandStartsThePass :
    (hosted (.compile [0x2B#8]) .runError).phase.atRest = true
      ∧ ([0x2B#8] : List Byte).length ≤ (hosted (.compile [0x2B#8]) .runError).cfg.srcCap := by decide

theorem witness_OversizedSourceIsRefused :
    tiny.srcCap < (List.replicate 17 0x2B#8).length ∧ Phase.atRest .idle = true := by decide

theorem witness_RunCommandStartsAFreshRun :
    (hosted .run .ready).phase = .ready ∧ (hosted .run .done).phase = .done ∧ (hosted .run .runError).phase = .runError := by
  decide

theorem witness_HostOperationsRefusedByPhase :
    (hosted (.compile []) .idle).host = [.compile []] ∧ (hosted .run .idle).host = [.run]
      ∧ (hosted .readStatus .running).host = [.readStatus]
      ∧ refusal? (step (hosted .outputByte .done)) = some .hostProtocol
      ∧ refusal? (step (hosted (.compile (List.replicate 17 0x2B#8)) .running)) = some .hostProtocol := by decide

theorem witness_ReadStatusReturnsTheRegister : (hosted .readStatus .compiling).host = [.readStatus] := by decide

/-- The small machine under `batch`, with one byte in `OUT` and the host about to ask for output. -/
def batchAsked (p : Phase) : State := { hosted .outputByte p with cfg := tinyBatch, out := [1#8] }

/-- Under `incremental` during the run: a byte to deliver, and none left; and after the run. Under `batch`: during the run,
and after it in each of its two ends. -/
theorem witness_DeliveryHandsOverOutInOrder :
    ((hosted .outputByte .running).cfg.flushPolicy = .incremental ∧ (hosted .outputByte .running).phase = .running
        ∧ (next? (step { hosted .outputByte .running with out := [1#8, 2#8], delivered := 1, received := [1#8] })).map
            (fun t => (t.received, t.delivered)) = some ([1#8, 2#8], 2)
        ∧ (next? (step (hosted .outputByte .running))).map (fun t => (t.received, t.delivered)) = some ([], 0))
      ∧ ((hosted .outputByte .done).phase = .done ∧ (hosted .outputByte .runError).phase = .runError)
      ∧ ((batchAsked .running).cfg.flushPolicy = .batch ∧ (batchAsked .running).phase = .running
        ∧ (next? (step (batchAsked .running))).map (fun t => t.received) = some [])
      ∧ (next? (step (batchAsked .done))).map (fun t => t.received) = some [1#8]
      ∧ (next? (step (batchAsked .runError))).map (fun t => t.received) = some [1#8] := by decide

/-- A run of `.` that is about to end, with its byte not yet delivered. -/
def endingRun : State := { running [4] 1 0 [] with src := [0x2E#8], spos := 1, out := [0#8] }

theorem endingRun_inv : endingRun.Inv := inv_of_facts [.output] (by decide) (by decide) (by change _ ≤ _; decide)

/-- The same run under `batch`, ended, with the host about to do `op`. -/
def endedBatch (op : HostOp) : State := { endingRun with cfg := tinyBatch, phase := .done, host := [op] }

theorem endedBatch_inv_run : (endedBatch .run).Inv := inv_of_facts [.output] (by decide) (by decide) rfl

theorem endedBatch_inv_compile : (endedBatch (.compile [])).Inv :=
  inv_of_facts [.output] (by decide) (by decide) rfl

/-- The terminal step of an `incremental` run, and RUN and COMPILE after a `batch` run that the host has not asked for. -/
theorem witness_CompletedRunsDeliverTheirOutput :
    (endingRun.Inv ∧ endingRun.cfg.flushPolicy = .incremental ∧ endingRun.phase = .running
        ∧ (next? (step endingRun)).map (fun t => (t.phase, t.received)) = some (.done, [0#8]))
      ∧ ((endedBatch .run).Inv ∧ (endedBatch .run).phase = .done
        ∧ (next? (step (endedBatch .run))).map (fun t => (t.phase, t.received)) = some (.running, [0#8]))
      ∧ (endedBatch (.compile [])).Inv
        ∧ (next? (step (endedBatch (.compile [])))).map (fun t => (t.phase, t.received)) = some (.compiling, [0#8]) :=
  ⟨⟨endingRun_inv, by decide⟩, ⟨endedBatch_inv_run, by decide⟩, endedBatch_inv_compile, by decide⟩

/-! ### Witnesses: frames -/

theorem witness_CellArithmeticFrame :
    (next? (exec .decrement (running [1] 0 3 [(0, 7#8)]))).isSome = true ∧ Memory.wf (running [1] 0 3 [(0, 7#8)]).tape = true
      ∧ cellAddress (running [1] 0 3 [(0, 7#8)]) = 3 := by decide

theorem witness_NonStoringInstructionsFrame :
    [Instr.moveRight, .moveLeft, .output, .jumpIfZero 2, .jump 0].all
      (fun i => (next? (exec i (running [] 0 0 []))).isSome) = true := by decide

theorem witness_CompileRulesFrame :
    [Instr.increment, .decrement, .moveRight, .moveLeft, .output, .jumpIfZero 0, .jump 0, .comment 0x61#8].all
      (fun i => (next? (exec i (compiling [0x5D#8] 0 [6, 0] [0]))).isSome) = true := by decide

/-- A step that is neither a compile step nor COMPILE, and one whose host operation is not RUN. -/
theorem witness_OnlyTheCompilerWritesTheProgram :
    (next? (step (running [4] 0 0 []))).isSome = true ∧ (running [4] 0 0 []).phase ≠ .compiling
      ∧ (running [4] 0 0 []).host.head? = none := by decide

/-- An Output, and a step that leaves `OUT` alone. -/
theorem witness_OutGrowsByOutputOnly :
    (next? (step (running [4] 0 0 []))).map (fun t => t.out) = some [0#8]
      ∧ (next? (step (running [0] 0 0 []))).map (fun t => t.out) = some []
      ∧ (running [4] 0 0 []).host.head? ≠ some .run := by decide

theorem witness_ReceivedBytesAreKept :
    endingRun.delivered ≤ endingRun.out.length ∧ endingRun.out.take endingRun.delivered <:+ endingRun.received
      ∧ (next? (step endingRun)).map (fun t => t.received) = some [0#8]
      ∧ (next? (step (endedBatch .run))).map (fun t => (t.out, t.received)) = some ([], [0#8]) := by decide

/-! ### Witnesses: invariants -/

/-- A run of `+[]` (vector D-7) at the word `ip`, with `v` in cell 0. -/
def endlessRun (ip : Nat) (tape : Memory) : State :=
  { running [0, 0x1E, 0x0D] ip 0 tape with src := [0x2B#8, 0x5B#8, 0x5D#8], spos := 3 }

theorem endlessRun_inv_at_jumpIfZero : (endlessRun 1 []).Inv :=
  inv_of_facts [.increment, .jumpIfZero 3, .jump 1] (by decide) (by decide) (by change _ ≤ _; decide)

theorem endlessRun_inv_at_jump : (endlessRun 2 [(0, 1#8)]).Inv :=
  inv_of_facts [.increment, .jumpIfZero 3, .jump 1] (by decide) (by decide) (by change _ ≤ _; decide)

/-- A compile in the middle of `[+]`, one bracket open. -/
def halfCompiled : State := compiling [0x5B#8, 0x2B#8, 0x5D#8] 2 [6, 0] [0]

theorem halfCompiled_inv : halfCompiled.Inv :=
  inv_of_facts [.jumpIfZero 0, .increment] (by decide) (by decide) trivial

/-- The small machine at power-on, with the host about to compile `buffer`. -/
def aboutToCompile (buffer : List Byte) : State := { State.powerOn tiny with host := [.compile buffer] }

theorem aboutToCompile_inv (buffer : List Byte) : (aboutToCompile buffer).Inv :=
  inv_of_facts [] (by simp [aboutToCompile, State.powerOn, State.plen, tiny, Memory.wf, Memory.wfFrom, Memory.below,
    Phase.allowsErr]) (by simp [aboutToCompile, State.powerOn, decodeProgram, Phase.hasProgram]) trivial

theorem witness_InvariantHoldsAtReset : 0 < ({ tiny with tapeCells := 1 } : Config).tapeCells := by decide

/-- A good state in each active phase, with a next state. -/
theorem witness_EveryStepKeepsTheInvariant :
    (halfCompiled.Inv ∧ (next? (step halfCompiled)).isSome = true)
      ∧ (endlessRun 2 [(0, 1#8)]).Inv ∧ (next? (step (endlessRun 2 [(0, 1#8)]))).isSome = true :=
  ⟨⟨halfCompiled_inv, by decide⟩, endlessRun_inv_at_jump, by decide⟩

theorem witness_GoodStatesStopOnlyAtNamedLimits :
    halfCompiled.Inv ∧ (endlessRun 1 []).Inv ∧ (aboutToCompile (List.replicate 17 0x2B#8)).Inv :=
  ⟨halfCompiled_inv, endlessRun_inv_at_jumpIfZero, aboutToCompile_inv _⟩

theorem witness_RunsOnlyEndInDoneOrRunError :
    (endlessRun 1 []).Inv ∧ (endlessRun 1 []).phase = .running ∧ (endlessRun 1 []).host = [] :=
  ⟨endlessRun_inv_at_jumpIfZero, rfl, rfl⟩

/-- With room for a word: a plain character, a `]` that closes, and a `]` with no bracket open. -/
theorem witness_CompileRulesComplete :
    (halfCompiled.Inv ∧ halfCompiled.phase = .compiling ∧ halfCompiled.plen < tiny.progCap ∧ halfCompiled.stk ≠ [])
      ∧ (compiling [] 0 [] []).Inv ∧ (compiling [] 0 [] []).stk = [] :=
  ⟨⟨halfCompiled_inv, by decide⟩, inv_of_facts [] (by decide) (by decide) trivial, by decide⟩

theorem witness_DpStaysInRange :
    (running [] 0 3 []).dp < tiny.tapeCells ∧ (next? (exec .moveLeft (running [] 0 3 []))).map (fun t => t.dp) = some 2
      ∧ (next? (exec .moveRight (running [] 0 3 []))).map (fun t => t.dp) = some 3 := by decide

theorem witness_StatusPairStaysLegal :
    (running [2] 0 3 []).phase.allowsErr (running [2] 0 3 []).err = true
      ∧ (next? (step (running [2] 0 3 []))).map (fun t => t.err) = some (some .outOfBounds) := by decide

theorem witness_TapeStaysCanonical :
    Memory.wf (running [0] 0 3 [(3, 0xFF#8)]).tape = true ∧ Memory.below 4 (running [0] 0 3 [(3, 0xFF#8)]).tape = true
      ∧ (next? (step (running [0] 0 3 [(3, 0xFF#8)]))).isSome = true := by decide

theorem witness_RegistersFitTheirWidths :
    halfCompiled.Inv ∧ (endlessRun 2 [(0, 1#8)]).Inv ∧ 1 < tiny.tapeCells :=
  ⟨halfCompiled_inv, endlessRun_inv_at_jump, by decide⟩

/-! ### Witnesses: the Program and runs -/

/-- Vector C4's words. -/
theorem witness_WellFormedTargetsPairUp :
    wellFormedWords 13 [0x0026, 0x001E, 0x000D, 0x0005] = true
      ∧ instrAt 13 [0x0026, 0x001E, 0x000D, 0x0005] 1 = some (.jumpIfZero 3)
      ∧ instrAt 13 [0x0026, 0x001E, 0x000D, 0x0005] 3 = some (.jump 0) := by decide

theorem witness_TargetsAreDeterminedByBrackets :
    wellFormedInstrs [.jumpIfZero 2, .jump 0] = true
      ∧ [Instr.jumpIfZero 2, .jump 0].map Instr.sourceForm = [.jumpIfZero 0, .jump 0] := by decide

theorem balanced_loop : balanced [0x5B#8, 0x5D#8] := by
  refine ⟨fun k => ?_, by decide⟩
  match k with
  | 0 => decide
  | 1 => decide
  | k + 2 => simp

theorem noStrayClose_open : noStrayClose [0x5B#8] := by
  intro k
  match k with
  | 0 => decide
  | k + 1 => simp

/-- A balanced source, one with a stray `]`, and one that leaves a bracket open. -/
theorem witness_CompileEndsAsBracketsBalance :
    ((aboutToCompile [0x5B#8, 0x5D#8]).Inv ∧ (aboutToCompile [0x5B#8, 0x5D#8]).phase.atRest = true
        ∧ ([0x5B#8, 0x5D#8] : List Byte).length ≤ tiny.srcCap ∧ ([0x5B#8, 0x5D#8] : List Byte).countP isCommand ≤ tiny.progCap)
      ∧ balanced [0x5B#8, 0x5D#8] ∧ ¬ noStrayClose [0x5D#8] ∧ noStrayClose [0x5B#8] ∧ ¬ balanced [0x5B#8] :=
  ⟨⟨aboutToCompile_inv _, by decide⟩, balanced_loop, fun h => absurd (h 1) (by decide), noStrayClose_open,
    fun h => absurd h.2 (by decide)⟩

theorem witness_IncrementAndDecrementUndo :
    (next? (exec .increment (running [0, 1] 0 0 [(0, 0xFF#8)]))).isSome = true
      ∧ (next? (exec .decrement (running [1, 0] 0 0 []))).isSome = true
      ∧ Memory.wf (running [0, 1] 0 0 [(0, 0xFF#8)]).tape = true := by decide

theorem witness_RepeatedIncrementsAddModulo256 :
    (running [0, 0] 0 3 [(3, 0xFF#8)]).dp < tiny.tapeCells ∧ Memory.wf (running [0, 0] 0 3 [(3, 0xFF#8)]).tape = true
      ∧ ∀ j, j < 2 → instrAt tiny.paw (running [0, 0] 0 3 [(3, 0xFF#8)]).prog (0 + j) = some .increment := by decide

theorem witness_LoopRetestsCellAtItsHead :
    (endlessRun 2 [(0, 1#8)]).Inv ∧ instrAt tiny.paw (endlessRun 2 [(0, 1#8)]).prog 2 = some (.jump 1)
      ∧ Memory.read (endlessRun 2 [(0, 1#8)]).tape 0 ≠ 0 :=
  ⟨endlessRun_inv_at_jump, by decide, by decide⟩

theorem witness_LoopIsSkippedOnZeroCell :
    (endlessRun 1 []).Inv ∧ instrAt tiny.paw (endlessRun 1 []).prog 1 = some (.jumpIfZero 3)
      ∧ Memory.read (endlessRun 1 []).tape 0 = 0 :=
  ⟨endlessRun_inv_at_jumpIfZero, by decide, by decide⟩

theorem witness_EmptyLoopRunsForEver :
    (endlessRun 1 [(0, 1#8)]).ip = 1 ∧ Memory.read (endlessRun 1 [(0, 1#8)]).tape 0 ≠ 0
      ∧ instrAt tiny.paw (endlessRun 1 [(0, 1#8)]).prog 1 = some (.jumpIfZero (1 + 2))
      ∧ instrAt tiny.paw (endlessRun 1 [(0, 1#8)]).prog (1 + 1) = some (.jump 1) := by decide

/-- Two states with one Program and nothing else alike. -/
theorem witness_RunsDoNotInterfere :
    (hosted .run .ready).cfg = ({ hosted .run .runError with tape := [(0, 9#8)], dp := 2, out := [1#8] } : State).cfg
      ∧ (hosted .run .ready).phase.allowsRun = true ∧ (hosted .run .runError).phase.allowsRun = true := by decide

theorem witness_CompileDependsOnSourceAlone :
    (hosted (.compile [0x5D#8]) .idle).host = [.compile [0x5D#8]]
      ∧ ({ hosted (.compile [0x5D#8]) .done with prog := [0], spos := 1 } : State).phase.atRest = true := by decide

/-- A run that reaches the last cell of its tape, which a longer tape may hold too. -/
theorem witness_LongerTapeGivesTheSameRun :
    (running [2, 0] 0 2 []).cfg.tapeCells ≤ 5
      ∧ (next? (steps 2 (running [2, 0] 0 2 []))).map (fun t => (t.phase, t.dp, t.tape)) = some (.running, 3, [(3, 1#8)]) := by
  decide

end Sys2Proof.Tests
end

section
/-! The compile rules (40_compiler R100 to R109): the two kinds of step while COMPILING, and the statements about the
plain characters, `]`, comments and the end of the pass. -/

namespace Sys2Proof.Machine

/-! ### The step while COMPILING (40_compiler R100) -/

/-- With no operation of the host to come, a step while COMPILING is the Compiler's. -/
theorem step_eq_compileStep {s : State} (hh : s.host = []) (hp : s.phase = .compiling) : step s = compileStep s := by
  rw [step_of_hostWaits (.inl hh), afterWait_of_host_nil s hh, coreStep_of_compiling hp]

theorem step_eq_exec_decodeSource {s : State} {c : Byte} (hh : s.host = []) (hp : s.phase = .compiling)
    (hc : s.src[s.spos]? = some c) : step s = exec (decodeSource c) s := by
  rw [step_eq_compileStep hh hp, compileStep, hc]

theorem step_eq_endOfPass {s : State} (hh : s.host = []) (hp : s.phase = .compiling) (hn : s.spos = s.src.length) :
    step s = endOfPass s := by
  have hnone : s.src[s.spos]? = none := List.getElem?_eq_none hn.ge
  rw [step_eq_compileStep hh hp, compileStep, hnone]
  exact if_pos hn

theorem decodeSource_close : decodeSource 0x5D#8 = .jump 0 := by decide

/-! ### `]` on an open bracket (40_compiler R107) -/

/-- The words after `]` closes the bracket at `p`, whose word is `w`: a Jump to `p` appended, and `w` backpatched. -/
def closedProg (paw : Nat) (ws : List Nat) (p w : Nat) : List Nat :=
  (ws ++ [makeWord paw 5 p]).set p (setTarget paw w (ws.length + 1))

@[simp] theorem length_closedProg (paw : Nat) (ws : List Nat) (p w : Nat) :
    (closedProg paw ws p w).length = ws.length + 1 := by
  simp [closedProg]

/-- Besides the backpatched word, every word already emitted is kept. -/
theorem closedProg_getElem?_of_ne {paw : Nat} {ws : List Nat} {p w i : Nat} (hi : i ≠ p) (hlt : i < ws.length) :
    (closedProg paw ws p w)[i]? = ws[i]? := by
  rw [closedProg, List.getElem?_set_ne hi.symm, List.getElem?_append_left hlt]

theorem instrAt_closedProg_jump {paw : Nat} {ws : List Nat} {p w : Nat} (hp : p < ws.length) (hfit : p < 2 ^ paw) :
    instrAt paw (closedProg paw ws p w) ws.length = some (.jump p) := by
  refine instrAt_eq_some_iff.mpr ⟨makeWord paw 5 p, ?_, decodeWord_makeWord 5 hfit⟩
  rw [closedProg, List.getElem?_set_ne hp.ne, List.getElem?_concat_length]

theorem instrAt_closedProg_jumpIfZero {paw : Nat} {ws : List Nat} {p w x : Nat} (hp : p < ws.length)
    (hw : decodeWord paw w = .ok (.jumpIfZero x)) (hfit : ws.length + 1 < 2 ^ paw) :
    instrAt paw (closedProg paw ws p w) p = some (.jumpIfZero (ws.length + 1)) := by
  refine instrAt_eq_some_iff.mpr ⟨_, ?_, decodeWord_setTarget_jumpIfZero hw hfit⟩
  rw [closedProg, List.getElem?_set_self (by simp; omega)]

/-- The compile rule of `]` answers where the bracket's word exists and the Program memory has room. -/
theorem exec_close_of_open {s : State} {x p w : Nat} {rest : List Nat} (hph : s.phase = .compiling)
    (hs : s.stk = p :: rest) (hw : s.prog[p]? = some w) (hroom : s.plen < s.cfg.progCap) :
    exec (.jump x) s = .next { s with prog := closedProg s.cfg.paw s.prog p w, stk := rest, spos := s.spos + 1 } := by
  obtain ⟨hlt, -⟩ := List.getElem?_eq_some_iff.mp hw
  refine (exec_close_compiling_cons hph hs).mpr ⟨hroom, w, ?_, rfl⟩
  rw [List.getElem?_append_left hlt, hw]

/-- Settles O23: both clauses are the compile rule of `]` at `SRC[SPOS]`; the targets `p` and `q + 1` fit their fields
because both are at most `PROG_CAP`. -/
theorem closeBracketEmitsAndBackpatches : Obligations.CloseBracketEmitsAndBackpatches := by
  refine ⟨fun s hh hp hc hs => ?_, fun s p rest x hh hp hc hs hjz hroom => ?_⟩
  · rw [step_eq_exec_decodeSource hh hp hc, decodeSource_close, exec_close_compiling_nil hp hs]
  · obtain ⟨w, hw, hdec⟩ := instrAt_eq_some_iff.mp hjz
    obtain ⟨hlt, -⟩ := List.getElem?_eq_some_iff.mp hw
    have hpfit : p < 2 ^ s.cfg.paw := lt_two_pow_paw (hlt.trans hroom).le
    have hqfit : s.plen + 1 < 2 ^ s.cfg.paw := lt_two_pow_paw hroom
    refine ⟨{ s with prog := closedProg s.cfg.paw s.prog p w, stk := rest, spos := s.spos + 1 }, ?_,
      length_closedProg .., instrAt_closedProg_jump hlt hpfit, instrAt_closedProg_jumpIfZero hlt hdec hqfit,
      fun i hne hi => closedProg_getElem?_of_ne hne hi, rfl⟩
    rw [step_eq_exec_decodeSource hh hp hc, decodeSource_close, exec_close_of_open hp hs hw hroom]

/-! ### Plain characters, comments and the end of the pass -/

/-- The five plain command characters, each with its op (40_compiler R101 to R105). -/
theorem plainOp_decodeSource : ∀ e ∈ [(0x2B#8, 0), (0x2D#8, 1), (0x3E#8, 2), (0x3C#8, 3), (0x2E#8, 4)],
    plainOp (decodeSource e.1) = some e.2 := by decide

/-- Settles O21: the byte selects a plain instruction, whose compile rule appends its op as the word. -/
theorem plainCharactersEmitOneWord : Obligations.PlainCharactersEmitOneWord := by
  intro s c op hmem hh hp hc hroom
  rw [step_eq_exec_decodeSource hh hp hc]
  exact (exec_plain_compiling (plainOp_decodeSource (c, op) hmem) hp).mpr ⟨hroom, rfl⟩

/-- Settles O24: a byte that is no command character selects the comment's rule. -/
theorem commentBytesOnlyAdvanceSpos : Obligations.CommentBytesOnlyAdvanceSpos := by
  refine fun s c hp => ⟨exec_comment_compiling c hp, fun hcmd hh hc => ?_⟩
  rw [step_eq_exec_decodeSource hh hp hc, decodeSource_of_not_command hcmd, exec_comment_compiling c hp]

/-- Settles O25: at `SPOS = n` the step is the end-of-pass step, which splits on the bracket stack. -/
theorem endOfPassChecksOpenBrackets : Obligations.EndOfPassChecksOpenBrackets := by
  intro s hh hp hn
  rw [step_eq_endOfPass hh hp hn]
  exact ⟨fun hs => endOfPass_eq_next.mpr (.inl ⟨hs, rfl⟩), fun hs => endOfPass_eq_next.mpr (.inr ⟨hs, rfl⟩)⟩

end Sys2Proof.Machine
end

section
/-! The dispatch loop (41_dispatch): the three things a dispatch step can be, its terminal step (R128), and the
independence of a run from everything that RUN resets or that no execute rule reads (R131). -/

namespace Sys2Proof.Machine

/-! ### The dispatch step (41_dispatch R123) -/

/-- With no operation of the host to come, a step is the core's. -/
theorem step_eq_coreStep {s : State} (hh : s.host = []) : step s = coreStep s := by
  rw [step_of_hostWaits (.inl hh), afterWait_of_host_nil s hh]

theorem dispatchStep_of_end {s : State} (h : s.ip = s.plen) : dispatchStep s = endOfRun s := if_pos h

theorem dispatchStep_of_instrAt {s : State} {i : Instr} (h : instrAt s.cfg.paw s.prog s.ip = some i) :
    dispatchStep s = exec i s := by
  obtain ⟨w, hw, hi⟩ := instrAt_eq_some_iff.mp h
  obtain ⟨hlt, -⟩ := List.getElem?_eq_some_iff.mp hw
  have hne : s.ip ≠ s.plen := hlt.ne
  simp only [dispatchStep, if_neg hne, hw, hi]

/-- Where there is no word, or none the decoder takes, the dispatch step refuses (30_encoding R79, log 14). -/
theorem dispatchStep_of_no_instr {s : State} (hne : s.ip ≠ s.plen) (h : instrAt s.cfg.paw s.prog s.ip = none) :
    dispatchStep s = .refused .illFormedProgram := by
  simp only [dispatchStep, if_neg hne]
  cases hw : s.prog[s.ip]? with
  | none => rfl
  | some w =>
    cases hi : decodeWord s.cfg.paw w with
    | error e => simp only [hi]
    | ok i => exact absurd (instrAt_eq_some_iff.mpr ⟨w, hw, hi⟩) (by simp [h])

/-- Settles O9: the step is the terminal step, which writes the phase and hands over what the host is owed. -/
theorem terminalStepOnlySetsDone : Obligations.TerminalStepOnlySetsDone := by
  intro s hh hp hend
  refine ⟨{ deliver (owedAtEnd s) s with phase := .done }, ?_, rfl⟩
  rw [step_eq_coreStep hh, coreStep_of_running hp, dispatchStep_of_end hend, endOfRun]

/-! ### Operations on states with the same run

Two states with one `runView` differ only in what a run does not consist of. Each operation that an execute rule is
made of takes two such states to outcomes with one view: the same stop, or two such states again. -/

section SameRun
variable {s s' : State} (h : s.runView = s'.runView)
include h

theorem runView_advance : (advance s).runView = (advance s').runView :=
  congrArg (fun v : RunView => { v with ip := v.ip + 1 }) h

theorem runView_setIp (x : Nat) : (setIp s x).runView = (setIp s' x).runView :=
  congrArg (fun v : RunView => { v with ip := x }) h

theorem runView_setDp (a : Nat) : (setDp s a).runView = (setDp s' a).runView :=
  congrArg (fun v : RunView => { v with dp := a }) h

theorem runView_emitByte (b : Byte) : (emitByte s b).runView = (emitByte s' b).runView :=
  congrArg (fun v : RunView => { v with out := v.out ++ [b] }) h

theorem runViewOf_next : runViewOf (.next s) = runViewOf (.next s') := congrArg Host.Outcome.next h

theorem runViewOf_raiseError (e : CoreError) : runViewOf (raiseError e s) = runViewOf (raiseError e s') :=
  runViewOf_next (congrArg (fun v : RunView => { v with err := some e, phase := e.phase }) h)

/-- What the host receives in the terminal step is no part of the run. -/
theorem runViewOf_endOfRun : runViewOf (endOfRun s) = runViewOf (endOfRun s') :=
  runViewOf_next (congrArg (fun v : RunView => { v with phase := .done }) h)

theorem runViewOf_writeCell (a : Nat) (b : Byte) : runViewOf (writeCell s a b) = runViewOf (writeCell s' a b) := by
  have hcfg : s.cfg = s'.cfg := congrArg RunView.cfg h
  by_cases ha : a < s.cfg.tapeCells
  · rw [writeCell_of_lt ha, writeCell_of_lt (hcfg ▸ ha)]
    exact runViewOf_next (congrArg (fun v : RunView => { v with tape := Memory.write v.tape a b }) h)
  · simp only [writeCell, if_neg ha, if_neg (hcfg ▸ ha)]

theorem runViewOf_withCell {k k' : Byte → Result} (hk : ∀ b, runViewOf (k b) = runViewOf (k' b)) :
    runViewOf (withCell s k) = runViewOf (withCell s' k') := by
  have hcfg : s.cfg = s'.cfg := congrArg RunView.cfg h
  have hdp : s.dp = s'.dp := congrArg RunView.dp h
  have htape : s.tape = s'.tape := congrArg RunView.tape h
  simp only [withCell, cellAddress, hdp]
  by_cases hlt : s'.dp < s'.cfg.tapeCells
  · rw [readCell_of_lt hlt, readCell_of_lt (hcfg ▸ hlt), htape]
    exact hk _
  · simp only [readCell, hcfg, if_neg hlt]

end SameRun

/-- Two sequences of steps show one view if their first parts do, and their second parts from every two states that the
first parts lead to. -/
theorem runViewOf_andThen {r r' : Result} {k k' : State → Result} (hr : runViewOf r = runViewOf r')
    (hk : ∀ t t', r = .next t → r' = .next t' → t.runView = t'.runView → runViewOf (k t) = runViewOf (k' t')) :
    runViewOf (andThen r k) = runViewOf (andThen r' k') := by
  cases r <;> cases r' <;> simp only [runViewOf, reduceCtorEq, Host.Outcome.next.injEq] at hr
  case next.next t t' => exact hk t t' rfl rfl hr
  case fault.fault f f' => exact hr
  case refused.refused w w' => exact hr

/-! ### Execute rules on states with the same run (41_dispatch R124, R127) -/

section ExecuteRules
variable {s s' : State} (h : s.runView = s'.runView)
include h

theorem runViewOf_updateCell (f : Byte → Byte) : runViewOf (updateCell s f) = runViewOf (updateCell s' f) := by
  have hdp : s.dp = s'.dp := congrArg RunView.dp h
  simp only [updateCell, cellAddress, hdp]
  exact runViewOf_withCell h fun b =>
    runViewOf_andThen (runViewOf_writeCell h s'.dp (f b)) fun _ _ _ _ ht => runViewOf_next (runView_advance ht)

theorem runViewOf_runMoveRight : runViewOf (runMoveRight s) = runViewOf (runMoveRight s') := by
  have hcfg : s.cfg = s'.cfg := congrArg RunView.cfg h
  have hdp : s.dp = s'.dp := congrArg RunView.dp h
  simp only [runMoveRight, hcfg, hdp]
  split
  · exact runViewOf_raiseError h .outOfBounds
  · exact runViewOf_next (runView_advance (runView_setDp h (s'.dp + 1)))

theorem runViewOf_runMoveLeft : runViewOf (runMoveLeft s) = runViewOf (runMoveLeft s') := by
  have hdp : s.dp = s'.dp := congrArg RunView.dp h
  simp only [runMoveLeft, hdp]
  split
  · exact runViewOf_raiseError h .outOfBounds
  · exact runViewOf_next (runView_advance (runView_setDp h (s'.dp - 1)))

theorem runViewOf_runOutput : runViewOf (runOutput s) = runViewOf (runOutput s') :=
  runViewOf_withCell h fun b => runViewOf_next (runView_advance (runView_emitByte h b))

theorem runViewOf_runJumpIfZero (x : Nat) : runViewOf (runJumpIfZero x s) = runViewOf (runJumpIfZero x s') := by
  refine runViewOf_withCell h fun b => ?_
  split
  · exact runViewOf_next (runView_setIp h x)
  · exact runViewOf_next (runView_advance h)

/-- An instruction executed while RUNNING reads nothing but the run and writes nothing else that the run shows. -/
theorem runViewOf_exec (hp : s.phase = .running) (i : Instr) : runViewOf (exec i s) = runViewOf (exec i s') := by
  have hp' : s'.phase = .running := (congrArg RunView.phase h).symm.trans hp
  cases i with
  | increment =>
    simp only [exec, execIncrement, byPhase_running hp, byPhase_running hp', runIncrement, runViewOf_updateCell h]
  | decrement =>
    simp only [exec, execDecrement, byPhase_running hp, byPhase_running hp', runDecrement, runViewOf_updateCell h]
  | moveRight => simp only [exec, execMoveRight, byPhase_running hp, byPhase_running hp', runViewOf_runMoveRight h]
  | moveLeft => simp only [exec, execMoveLeft, byPhase_running hp, byPhase_running hp', runViewOf_runMoveLeft h]
  | output => simp only [exec, execOutput, byPhase_running hp, byPhase_running hp', runViewOf_runOutput h]
  | jumpIfZero x =>
    simp only [exec, execJumpIfZero, byPhase_running hp, byPhase_running hp', runViewOf_runJumpIfZero h]
  | jump x => rw [exec_jump_running x hp, exec_jump_running x hp']; exact runViewOf_next (runView_setIp h x)
  | comment c => rw [exec_comment_running c hp, exec_comment_running c hp']
  | reservedWord x => rfl

theorem runViewOf_dispatchStep (hp : s.phase = .running) :
    runViewOf (dispatchStep s) = runViewOf (dispatchStep s') := by
  have hip : s.ip = s'.ip := congrArg RunView.ip h
  have hprog : s.prog = s'.prog := congrArg RunView.prog h
  have hplen : s.plen = s'.plen := congrArg List.length hprog
  have hinstr : instrAt s.cfg.paw s.prog s.ip = instrAt s'.cfg.paw s'.prog s'.ip :=
    congrArg (fun v : RunView => instrAt v.cfg.paw v.prog v.ip) h
  by_cases hend : s.ip = s.plen
  · rw [dispatchStep_of_end hend, dispatchStep_of_end (hip ▸ hplen ▸ hend)]
    exact runViewOf_endOfRun h
  · cases hi : instrAt s.cfg.paw s.prog s.ip with
    | some i =>
      rw [dispatchStep_of_instrAt hi, dispatchStep_of_instrAt (hinstr ▸ hi)]
      exact runViewOf_exec h hp i
    | none =>
      rw [dispatchStep_of_no_instr hend hi, dispatchStep_of_no_instr (hip ▸ hplen ▸ hend) (hinstr ▸ hi)]

end ExecuteRules

/-! ### A run left to itself (41_dispatch R131) -/

/-- A state after RUN with no further operation of the host: RUNNING, or at rest after the run. -/
def State.runAlone (s : State) : Prop := s.host = [] ∧ (s.phase = .running ∨ s.phase.atRest = true)

theorem exec_running_frame {i : Instr} {s t : State} (hp : s.phase = .running) (h : exec i s = .next t) :
    t.host = s.host ∧ (t.phase = .running ∨ t.phase = .runError) := by
  rcases exec_running_cases hp h with ⟨f, -, -, rfl⟩ | ⟨-, -, rfl⟩ | ⟨-, -, rfl⟩ | ⟨-, rfl⟩ | ⟨-, -, rfl⟩ | ⟨x, -, rfl⟩ |
    ⟨x, -, -, rfl⟩ <;> simp [hp]

theorem step_keeps_runAlone {s t : State} (hs : s.runAlone) (h : step s = .next t) : t.runAlone := by
  obtain ⟨hh, hp⟩ := hs
  rw [step_eq_coreStep hh] at h
  rcases coreStep_cases h with ⟨c, hc, -⟩ | ⟨hc, -⟩ | ⟨hr, -, he⟩ | ⟨w, i, hr, -, -, he⟩ | ⟨hrest, rfl⟩
  · simp [hc, Phase.atRest] at hp
  · simp [hc, Phase.atRest] at hp
  · obtain ⟨-, rfl⟩ | ⟨-, rfl⟩ := endOfRun_eq_next.mp he <;> exact ⟨hh, .inr rfl⟩
  · obtain ⟨hhost, hphase | hphase⟩ := exec_running_frame hr he
    · exact ⟨hhost.trans hh, .inl hphase⟩
    · exact ⟨hhost.trans hh, .inr (by rw [hphase]; rfl)⟩
  · exact ⟨hh, .inr hrest⟩

theorem runViewOf_step {s s' : State} (h : s.runView = s'.runView) (hs : s.runAlone) (hs' : s'.runAlone) :
    runViewOf (step s) = runViewOf (step s') := by
  obtain ⟨hh, hp⟩ := hs
  obtain ⟨hh', -⟩ := hs'
  have hphase : s.phase = s'.phase := congrArg RunView.phase h
  rw [step_eq_coreStep hh, step_eq_coreStep hh']
  rcases hp with hr | hrest
  · rw [coreStep_of_running hr, coreStep_of_running (hphase ▸ hr)]
    exact runViewOf_dispatchStep h hr
  · rw [coreStep_atRest hrest, coreStep_atRest (hphase ▸ hrest)]
    exact runViewOf_next h

/-- Runs that are alike stay alike, step for step. -/
theorem runViewOf_steps (k : Nat) : ∀ {s s' : State}, s.runView = s'.runView → s.runAlone → s'.runAlone →
    runViewOf (steps k s) = runViewOf (steps k s') := by
  induction k with
  | zero => exact fun h _ _ => runViewOf_next h
  | succ k ih =>
    intro s s' h hs hs'
    rw [steps_succ, steps_succ]
    exact runViewOf_andThen (runViewOf_step h hs hs') fun t t' ht ht' hview =>
      ih hview (step_keeps_runAlone hs ht) (step_keeps_runAlone hs' ht')

/-- A RUN that is allowed starts a run that is left to itself, and what it shows comes from the parameters and the
Program alone (41_dispatch R122). -/
theorem step_run_starts_fresh {s : State} (hh : s.host = [.run]) (hp : s.phase.allowsRun = true) :
    ∃ t, step s = .next t ∧ t.runAlone
      ∧ t.runView =
          { cfg := s.cfg, ip := 0, dp := 0, tape := [], out := [], prog := s.prog, phase := .running, err := none } := by
  have hstep : step s = startRun { s with host := [] } := by rw [step, hostStep, hh]
  exact ⟨_, hstep.trans (startRun_eq_next.mpr ⟨hp, rfl⟩), ⟨rfl, .inl rfl⟩, rfl⟩

/-- Settles O57: after the RUN both states show the same fresh run, and every step keeps them alike. -/
theorem runsDoNotInterfere : Obligations.RunsDoNotInterfere := by
  intro k s s' hcfg hprog hh hh' hp hp'
  obtain ⟨t, ht, halone, hview⟩ := step_run_starts_fresh hh hp
  obtain ⟨t', ht', halone', hview'⟩ := step_run_starts_fresh hh' hp'
  have hsame : t.runView = t'.runView := by rw [hview, hview', hcfg, hprog]
  rw [steps_succ, steps_succ, ht, ht', andThen_next, andThen_next]
  exact runViewOf_steps k hsame halone halone'

end Sys2Proof.Machine
end

section
/-! Cell arithmetic (42_cell_arith): Increment and Decrement are one operation, the addition of a byte to the current
cell, with the bytes 1 (R140) and 255 (R141). -/

namespace Sys2Proof.Machine

/-- The state after `c` was added to the current cell and `ip` advanced. -/
def State.addToCell (c : Byte) (s : State) : State :=
  { s with tape := Memory.write s.tape s.dp (Memory.read s.tape s.dp + c), ip := s.ip + 1 }

/-- The 8-bit sum wraps modulo 256 (R142). -/
theorem read_addToCell_dp {s : State} (c : Byte) (hwf : Memory.wf s.tape = true) :
    (Memory.read (s.addToCell c).tape s.dp).toNat = ((Memory.read s.tape s.dp).toNat + c.toNat) % 256 := by
  have hread : Memory.read (s.addToCell c).tape s.dp = Memory.read s.tape s.dp + c := Memory.read_write_same hwf
  rw [hread, BitVec.toNat_add]

theorem read_addToCell_of_ne {s : State} {a : Nat} (c : Byte) (ha : a ≠ s.dp) :
    Memory.read (s.addToCell c).tape a = Memory.read s.tape a :=
  Memory.read_write_other ha

theorem exec_increment_eq_addToCell {s : State} (hp : s.phase = .running) (hdp : s.dp < s.cfg.tapeCells) :
    exec .increment s = .next (s.addToCell 1) :=
  (exec_increment_running hp).mpr ⟨hdp, rfl⟩

theorem exec_decrement_eq_addToCell {s : State} (hp : s.phase = .running) (hdp : s.dp < s.cfg.tapeCells) :
    exec .decrement s = .next (s.addToCell 255) :=
  (exec_decrement_running hp).mpr ⟨hdp, rfl⟩

/-- Settles O11: Increment adds the byte 1 to the current cell. -/
theorem incrementAddsOneModulo256 : Obligations.IncrementAddsOneModulo256 :=
  ⟨⟨by decide, fun _ => decodeWord_plainOp rfl⟩, fun s hp hdp hwf =>
    ⟨s.addToCell 1, exec_increment_eq_addToCell hp hdp, read_addToCell_dp 1 hwf,
      fun _ ha => read_addToCell_of_ne 1 ha, rfl⟩⟩

/-- Settles O12: Decrement adds the byte 255 to the current cell. -/
theorem decrementSubtractsOneModulo256 : Obligations.DecrementSubtractsOneModulo256 :=
  ⟨⟨by decide, fun _ => decodeWord_plainOp rfl⟩, fun s hp hdp hwf =>
    ⟨s.addToCell 255, exec_decrement_eq_addToCell hp hdp, read_addToCell_dp 255 hwf,
      fun _ ha => read_addToCell_of_ne 255 ha, rfl⟩⟩

end Sys2Proof.Machine
end

section
/-! Output (44_output): what R160 appends to `OUT`. -/

namespace Sys2Proof.Machine

/-- Settles O15: with `dp` on the tape, the execute rule of Output answers exactly the state that R160 gives. -/
theorem outputAppendsCurrentCell : Obligations.OutputAppendsCurrentCell :=
  ⟨⟨by decide, fun _ => decodeWord_plainOp rfl⟩, fun _ hp hdp => (exec_output_running hp).mpr ⟨hdp, rfl⟩⟩

end Sys2Proof.Machine
end

section
/-! Control (45_control): the two jumps. Their targets are absolute Program indices, which the word holds above its op
field, and their execute rules write `ip` alone. -/

namespace Sys2Proof.Machine

/-- A target that fits loses no bit in its word (30_encoding R75, R77). -/
theorem makeWord_eq_of_lt {paw t : Nat} (op : Fin 8) (ht : t < 2 ^ paw) : makeWord paw op.val t = t * 8 + op.val := by
  rw [makeWord, Nat.mod_eq_of_lt ht, Nat.mod_eq_of_lt op.isLt]

theorem decodeWord_jump {paw t : Nat} (ht : t < 2 ^ paw) : decodeWord paw (t * 8 + 5) = .ok (.jump t) :=
  makeWord_eq_of_lt 5 ht ▸ decodeWord_makeWord 5 ht

theorem decodeWord_jumpIfZero {paw t : Nat} (ht : t < 2 ^ paw) : decodeWord paw (t * 8 + 6) = .ok (.jumpIfZero t) :=
  makeWord_eq_of_lt 6 ht ▸ decodeWord_makeWord 6 ht

/-- Settles O16: the word of op 5 gives its target back, and the execute rule of Jump writes that target to `ip`. -/
theorem jumpWritesItsTarget : Obligations.JumpWritesItsTarget :=
  ⟨⟨by decide, fun _ _ => decodeWord_jump⟩, fun _ t hp => exec_jump_running t hp⟩

/-- Settles O17: with `dp` on the tape, the execute rule of JumpIfZero answers exactly the state that R171 gives for
the current cell. -/
theorem jumpIfZeroTestsCurrentCell : Obligations.JumpIfZeroTestsCurrentCell :=
  ⟨⟨by decide, fun _ _ => decodeWord_jumpIfZero⟩, fun _ _ hp hdp => (exec_jumpIfZero_running hp).mpr ⟨hdp, rfl⟩⟩

end Sys2Proof.Machine
end

section
/-! Runtime errors (60_exceptions R202): while RUNNING, only a move at the edge of the tape writes STATUS. -/

namespace Sys2Proof.Machine

/-- The instruction moves `dp` off the tape: MoveRight at the last cell, or MoveLeft at cell 0. -/
def isEdgeMove (i : Instr) (s : State) : Prop :=
  i = .moveRight ∧ s.cfg.tapeCells ≤ s.dp + 1 ∨ i = .moveLeft ∧ s.dp = 0

theorem not_isEdgeMove_of_not_move {i : Instr} {s : State} (hr : i ≠ .moveRight) (hl : i ≠ .moveLeft) :
    ¬ isEdgeMove i s := by
  rintro (⟨h, -⟩ | ⟨h, -⟩)
  · exact hr h
  · exact hl h

theorem not_isEdgeMove_moveRight {s : State} (hdp : s.dp + 1 < s.cfg.tapeCells) : ¬ isEdgeMove .moveRight s := by
  rintro (⟨-, h⟩ | ⟨h, -⟩)
  · omega
  · cases h

theorem not_isEdgeMove_moveLeft {s : State} (hdp : 0 < s.dp) : ¬ isEdgeMove .moveLeft s := by
  rintro (⟨h, -⟩ | ⟨-, h⟩)
  · cases h
  · omega

/-- The two ways an execute rule leaves STATUS: a move at the edge raises OutOfBounds, anything else keeps it. -/
theorem exec_running_status {i : Instr} {s t : State} (hp : s.phase = .running) (h : exec i s = .next t) :
    (isEdgeMove i s ∧ t.phase = .runError ∧ t.err = some .outOfBounds)
      ∨ (¬ isEdgeMove i s ∧ s.sameStatus t) := by
  rcases exec_running_cases hp h with ⟨f, rfl | rfl, -, rfl⟩ | ⟨rfl, hdp, rfl⟩ | ⟨rfl, hdp, rfl⟩ | ⟨hedge, rfl⟩ |
    ⟨rfl, -, rfl⟩ | ⟨x, rfl, rfl⟩ | ⟨x, rfl, -, rfl⟩
  case inr.inl => exact .inr ⟨not_isEdgeMove_moveRight hdp, rfl, rfl⟩
  case inr.inr.inl => exact .inr ⟨not_isEdgeMove_moveLeft hdp, rfl, rfl⟩
  case inr.inr.inr.inl => exact .inl ⟨hedge, rfl, rfl⟩
  all_goals exact .inr ⟨not_isEdgeMove_of_not_move nofun nofun, rfl, rfl⟩

/-- Settles O19: an edge move raises OutOfBounds, and every other instruction keeps STATUS, so it stays RUNNING. -/
theorem onlyEdgeMovesRaiseRuntimeErrors : Obligations.OnlyEdgeMovesRaiseRuntimeErrors := by
  intro i s t hp h
  obtain ⟨hedge, hraised⟩ | ⟨hedge, hsame⟩ := exec_running_status hp h
  · exact ⟨iff_of_true hraised hedge, fun hnot => absurd hraised hnot⟩
  · have ⟨hphase, _⟩ := hsame
    have hnot : ¬ (t.phase = .runError ∧ t.err = some .outOfBounds) := by simp [hphase, hp]
    exact ⟨iff_of_false hnot hedge, fun _ => hsame⟩

end Sys2Proof.Machine
end

section
/-! The two encodings (30_encoding): Program words and the instructions they hold determine each other (R75 to R79), and
so do source bytes and the instructions they select, but for a bracket's target (R71 to R73). -/

namespace Sys2Proof.Machine

/-! ### Program words (30_encoding R75 to R79) -/

theorem encodeWord_lt {paw w : Nat} {i : Instr} (h : encodeWord paw i = some w) : w < 2 ^ (paw + 3) := by
  cases i <;> simp only [encodeWord, Option.some.injEq, reduceCtorEq] at h <;> subst h <;> exact makeWord_lt ..

theorem decodeWord_encodeWord {paw w : Nat} {i : Instr} (hwf : Instr.wf paw i = true) (h : encodeWord paw i = some w) :
    decodeWord paw w = .ok i := by
  have hzero : (0 : Nat) < 2 ^ paw := Nat.two_pow_pos paw
  cases i with
  | increment => cases h; exact decodeWord_makeWord 0 hzero
  | decrement => cases h; exact decodeWord_makeWord 1 hzero
  | moveRight => cases h; exact decodeWord_makeWord 2 hzero
  | moveLeft => cases h; exact decodeWord_makeWord 3 hzero
  | output => cases h; exact decodeWord_makeWord 4 hzero
  | jump t => cases h; exact decodeWord_makeWord 5 (of_decide_eq_true hwf)
  | jumpIfZero t => cases h; exact decodeWord_makeWord 6 (of_decide_eq_true hwf)
  | reservedWord x => cases h; exact decodeWord_makeWord 7 (of_decide_eq_true hwf)
  | comment c => cases h

/-- Settles O3: a word is put together from an op and a target that fits, and the decoder reads both fields back. -/
theorem decodeOfEncodedWordGivesInstruction : Obligations.DecodeOfEncodedWordGivesInstruction :=
  fun _ _ _ hwf h => ⟨encodeWord_lt h, decodeWord_encodeWord hwf h⟩

/-- An instruction that the decoder reads from the fields of a word is well-formed, and has those fields for its word. -/
theorem encodeWord_of_decodeWord {paw w : Nat} {i : Instr} (h : decodeWord paw w = .ok i) :
    encodeWord paw i = some (makeWord paw (opField w).val (targetField paw w)) ∧ Instr.wf paw i = true := by
  have hfit : targetField paw w < 2 ^ paw := Nat.mod_lt _ (Nat.two_pow_pos paw)
  unfold decodeWord at h
  split at h <;> rename_i hop <;> rw [hop]
  case h_6 => cases h; exact ⟨rfl, decide_eq_true hfit⟩
  case h_7 => cases h; exact ⟨rfl, decide_eq_true hfit⟩
  case h_8 => cases h; exact ⟨rfl, decide_eq_true hfit⟩
  all_goals
    obtain ⟨hzero, rfl⟩ := plainWord_eq_ok.mp h
    rw [hzero]
    exact ⟨rfl, rfl⟩

/-- Settles O4: a word of `PAW + 3` bits is nothing but its two fields. -/
theorem encodeOfDecodedWordGivesWord : Obligations.EncodeOfDecodedWordGivesWord := by
  intro paw i w hw h
  obtain ⟨henc, hwf⟩ := encodeWord_of_decodeWord h
  exact ⟨henc.trans (congrArg some (makeWord_fields hw)), hwf⟩

/-- Settles O2: each sample is a closed word at a fixed `PAW`. -/
theorem sampleWordsDecodeAsWrittenOut : Obligations.SampleWordsDecodeAsWrittenOut := by
  unfold Obligations.SampleWordsDecodeAsWrittenOut
  decide

/-! ### Source bytes (30_encoding R71 to R73) -/

/-- Settles O1: the seven bytes are closed cases, and every other byte is a comment. -/
theorem sourceBytesDecodeAsTabled : Obligations.SourceBytesDecodeAsTabled :=
  ⟨by decide, by decide, by decide, by decide, by decide, by decide, by decide,
    fun _ => decodeSource_of_not_command⟩

theorem encodeSource_decodeSource (c : Byte) : encodeSource (decodeSource c) = some c := by
  by_cases hc : c ∈ commandBytes
  · have hall : ∀ b ∈ commandBytes, encodeSource (decodeSource b) = some b := by decide
    exact hall c hc
  · rw [decodeSource_of_not_command hc]; rfl

theorem isCommand_eq_false_iff {c : Byte} : isCommand c = false ↔ c ∉ commandBytes := by
  rw [isCommand, ← Bool.not_eq_true, List.contains_iff_mem]

theorem decodeSource_of_encodeSource {paw : Nat} {i : Instr} {c : Byte} (hwf : Instr.wf paw i = true)
    (h : encodeSource i = some c) : decodeSource c = i.sourceForm := by
  cases i with
  | comment b =>
    cases h
    exact decodeSource_of_not_command (isCommand_eq_false_iff.mp (by simpa [Instr.wf] using hwf))
  | reservedWord x => cases h
  | _ => cases h; rfl

/-- Settles O5: the seven command bytes are checked one by one, and a comment is its own byte. -/
theorem sourceEncodingRoundTrips : Obligations.SourceEncodingRoundTrips :=
  ⟨encodeSource_decodeSource, fun _ _ _ => decodeSource_of_encodeSource⟩

end Sys2Proof.Machine
end

section
/-! The step where the host issues no operation: at rest (60_exceptions R217), at a Program word (41_dispatch R123) and
at a source byte (40_compiler R100), with the words and the bytes that stop it (30_encoding R79, 40_compiler R111). -/

namespace Sys2Proof.Machine

/-! ### A step that the host lets pass -/

theorem step_of_hostWaits_running {s : State} (hw : s.hostWaits) (hp : s.phase = .running) :
    step s = dispatchStep s.afterWait := by
  rw [step_of_hostWaits hw]; exact coreStep_of_running hp

theorem step_of_hostWaits_compiling {s : State} (hw : s.hostWaits) (hp : s.phase = .compiling) :
    step s = compileStep s.afterWait := by
  rw [step_of_hostWaits hw]; exact coreStep_of_compiling hp

/-- Settles O10: the core takes no step at rest. -/
theorem restingCoreHoldsItsState : Obligations.RestingCoreHoldsItsState :=
  fun _ hrest hw => (step_of_hostWaits hw).trans (coreStep_atRest hrest)

/-- Settles O7: the dispatch step executes what the word at `ip` decodes to. -/
theorem runningStepExecutesFetchedWord : Obligations.RunningStepExecutesFetchedWord := by
  intro s i w hw hp hword hi
  rw [step_of_hostWaits_running hw hp]
  exact dispatchStep_of_instrAt (instrAt_eq_some_iff.mpr ⟨w, hword, hi⟩)

theorem compileStep_of_getElem? {s : State} {c : Byte} (h : s.src[s.spos]? = some c) :
    compileStep s = exec (decodeSource c) s := by
  rw [compileStep, h]

/-- Settles O8: the compile step applies the rule that the byte at `SPOS` selects. -/
theorem compilingStepAppliesSelectedRule : Obligations.CompilingStepAppliesSelectedRule := by
  intro s c hw hp hc
  rw [step_of_hostWaits_compiling hw hp]
  exact compileStep_of_getElem? hc

/-! ### Words that no Program holds (30_encoding R79) -/

/-- Settles O18: the reserved word has one arm, and it refuses. -/
theorem reservedWordIsRefused : Obligations.ReservedWordIsRefused := exec_reservedWord

theorem plainWord_of_ne_zero {op t : Nat} {i : Instr} (h : t ≠ 0) : plainWord op t i = .error (.nonZeroTarget op) :=
  if_neg h

/-- A non-jump word with a target is turned down under its own op. -/
theorem decodeWord_of_plain_op_with_target {paw w : Nat} (hop : w % 8 ≤ 4) (ht : targetField paw w ≠ 0) :
    decodeWord paw w = .error (.nonZeroTarget (w % 8)) := by
  rw [← opField_val] at hop ⊢
  unfold decodeWord
  split <;> rename_i h <;> rw [h] at hop ⊢
  case h_6 | h_7 | h_8 => exact absurd hop (by decide)
  all_goals exact plainWord_of_ne_zero ht

theorem decodeWord_of_op_seven {paw w : Nat} (hop : w % 8 = 7) :
    decodeWord paw w = .ok (.reservedWord (targetField paw w)) := by
  have hfield : opField w = 7 := Fin.ext hop
  rw [decodeWord, hfield]

theorem targetField_mul_add {paw op t : Nat} (hop : op < 8) (ht : t < 2 ^ paw) : targetField paw (t * 8 + op) = t := by
  rw [← makeWord_eq_of_lt ⟨op, hop⟩ ht]
  exact targetField_makeWord op ht

/-- Settles O6: the decoder turns the first kind of word down, and the reserved word's arm refuses the second. -/
theorem illegalWordsAreRefused : Obligations.IllegalWordsAreRefused := by
  refine ⟨fun paw op t hop hpos ht => ?_, fun s w hw hp hword hbad => ?_⟩
  · have hop' : (t * 8 + op) % 8 = op := by omega
    have ht' : targetField paw (t * 8 + op) ≠ 0 := by rw [targetField_mul_add (by omega) ht]; omega
    simpa only [hop'] using decodeWord_of_plain_op_with_target (hop'.symm ▸ hop) ht'
  · rw [step_of_hostWaits_running hw hp]
    rcases hbad with hseven | ⟨hplain, ht⟩
    · exact dispatchStep_of_instrAt (s := s.afterWait) (instrAt_eq_some_iff.mpr ⟨w, hword, decodeWord_of_op_seven hseven⟩)
    · have hnone : instrAt s.cfg.paw s.prog s.ip = none := by
        simp only [instrAt, hword, decodeWord_of_plain_op_with_target hplain ht]; rfl
      obtain ⟨hlt, -⟩ := List.getElem?_eq_some_iff.mp hword
      exact dispatchStep_of_no_instr (s := s.afterWait) hlt.ne hnone

/-! ### The moves (43_pointer R150, R151) -/

/-- Settles O13: MoveRight tests the last cell before it writes. -/
theorem moveRightMovesOrFaults : Obligations.MoveRightMovesOrFaults := by
  refine ⟨⟨by decide, fun _ => decodeWord_plainOp rfl⟩, fun s hp hdp => ?_, fun s hp hdp => ?_⟩
  · rw [exec_moveRight_running hp, if_neg (by omega)]
  · rw [exec_moveRight_running hp, if_pos hdp]; rfl

/-- Settles O14: MoveLeft tests cell 0 before it writes. -/
theorem moveLeftMovesOrFaults : Obligations.MoveLeftMovesOrFaults := by
  refine ⟨⟨by decide, fun _ => decodeWord_plainOp rfl⟩, fun s hp hdp => ?_, fun s hp hdp => ?_⟩
  · rw [exec_moveLeft_running hp, if_neg (by omega)]
  · rw [exec_moveLeft_running hp, if_pos hdp]; rfl

/-! ### Emitting a word (40_compiler R106, R111) -/

theorem decodeSource_open : decodeSource 0x5B#8 = .jumpIfZero 0 := by decide

/-- Settles O22: room for a word is room on the stack, which is as deep as the Program memory. -/
theorem openBracketPushesAndEmits : Obligations.OpenBracketPushesAndEmits := by
  intro s hh hp hc hroom hdepth
  refine ⟨{ s with prog := s.prog ++ [6], stk := s.plen :: s.stk, spos := s.spos + 1 }, ?_,
    decodeWord_jumpIfZero (Nat.two_pow_pos _), rfl⟩
  rw [step_eq_exec_decodeSource hh hp hc, decodeSource_open]
  exact (exec_open_compiling hp).mpr ⟨hroom, hdepth.trans_lt hroom, rfl⟩

theorem emitChar_of_full {s : State} {op t : Nat} (hfull : s.cfg.progCap ≤ s.plen) :
    emitChar s op t = .refused .programCapacity := by
  rw [emitChar, emitWord_of_full hfull, andThen_refused]

theorem compileOpen_of_full {s : State} (hfull : s.cfg.progCap ≤ s.plen) :
    compileOpen s = .refused .programCapacity := by
  rw [compileOpen, emitWord_of_full hfull, andThen_refused]

theorem compileClose_of_full {s : State} (hfull : s.cfg.progCap ≤ s.plen) (hs : s.stk ≠ []) :
    compileClose s = .refused .programCapacity := by
  obtain ⟨p, rest, hs⟩ := List.exists_cons_of_ne_nil hs
  have hfull' : ({ s with stk := rest } : State).cfg.progCap ≤ ({ s with stk := rest } : State).plen := hfull
  simp only [compileClose, hs, emitWord_of_full hfull', andThen_refused]

/-- The seven command characters are those whose rule emits a word (40_compiler R101 to R107). -/
theorem decodeSource_of_command : ∀ c ∈ commandBytes,
    (plainOp (decodeSource c)).isSome ∨ decodeSource c = .jumpIfZero 0 ∨ decodeSource c = .jump 0 ∧ c = 0x5D#8 := by
  decide

/-- A plain character's rule is `emit` and one byte on. -/
theorem exec_plain_eq_emitChar {s : State} {i : Instr} {op : Nat} (hi : plainOp i = some op) (hp : s.phase = .compiling) :
    exec i s = emitChar s op 0 := by
  cases i <;> simp only [plainOp, Option.some.injEq, reduceCtorEq] at hi <;> subst hi <;> exact byPhase_compiling hp

/-- A rule that must emit refuses at a full Program memory. -/
theorem exec_command_of_full {s : State} {c : Byte} (hc : c ∈ commandBytes) (hp : s.phase = .compiling)
    (hfull : s.cfg.progCap ≤ s.plen) (hs : c = 0x5D#8 → s.stk ≠ []) :
    exec (decodeSource c) s = .refused .programCapacity := by
  rcases decodeSource_of_command c hc with hplain | hopen | ⟨hclose, rfl⟩
  · obtain ⟨op, hop⟩ := Option.isSome_iff_exists.mp hplain
    rw [exec_plain_eq_emitChar hop hp, emitChar_of_full hfull]
  · rw [hopen, exec, execJumpIfZero, byPhase_compiling hp, compileOpen_of_full hfull]
  · rw [hclose, exec, execJump, byPhase_compiling hp, compileClose_of_full hfull (hs rfl)]

/-- Settles O26: each of the seven rules begins with `emit`, but for a `]` with no bracket open. -/
theorem fullProgramMemoryRefusesEmit : Obligations.FullProgramMemoryRefusesEmit := by
  intro s c hc hh hp hbyte hfull hs
  rw [step_eq_exec_decodeSource hh hp hbyte, exec_command_of_full hc hp hfull.ge hs]

end Sys2Proof.Machine
end

section
/-! The four operations of the host (41_dispatch R120 to R126): the phases that allow each, and what each does. -/

namespace Sys2Proof.Machine

/-! ### An operation of the host is a step of its own (41_dispatch R122) -/

section HostOps
variable {s : State} {later : List HostOp}

theorem step_compile {buffer : List Byte} (h : s.host = .compile buffer :: later) :
    step s = startCompile buffer { s with host := later } := by rw [step, hostStep, h]

theorem step_run (h : s.host = .run :: later) : step s = startRun { s with host := later } := by
  rw [step, hostStep, h]

theorem step_readStatus (h : s.host = .readStatus :: later) : step s = readStatus { s with host := later } := by
  rw [step, hostStep, h]

theorem step_outputByte (h : s.host = .outputByte :: later) : step s = deliverOutput { s with host := later } := by
  rw [step, hostStep, h]

end HostOps

/-! ### The phases that allow an operation -/

theorem Phase.atRest_eq_false_iff {p : Phase} : p.atRest = false ↔ p = .compiling ∨ p = .running := by
  cases p <;> decide

theorem Phase.allowsRun_iff {p : Phase} : p.allowsRun = true ↔ p = .ready ∨ p = .done ∨ p = .runError := by
  cases p <;> decide

theorem Phase.allowsRun_eq_false_iff {p : Phase} :
    p.allowsRun = false ↔ p = .idle ∨ p = .compiling ∨ p = .running ∨ p = .compileError := by
  cases p <;> decide

theorem Phase.allowsOutput_iff {p : Phase} {policy : FlushPolicy} :
    p.allowsOutput policy = true ↔ p = .running ∨ (policy = .batch ∧ (p = .done ∨ p = .runError)) := by
  cases p <;> cases policy <;> decide

theorem startCompile_eq_hostProtocol_iff {s : State} {buffer : List Byte} :
    startCompile buffer s = .refused .hostProtocol ↔ s.phase.atRest = false := by
  unfold startCompile
  cases s.phase.atRest with
  | false => simp
  | true => by_cases hlen : s.cfg.srcCap < buffer.length <;> simp [hlen]

theorem startCompile_of_oversized {s : State} {buffer : List Byte} (hrest : s.phase.atRest = true)
    (hlen : s.cfg.srcCap < buffer.length) : startCompile buffer s = .refused .sourceCapacity := by
  simp [startCompile, hrest, hlen]

theorem startRun_eq_hostProtocol_iff {s : State} :
    startRun s = .refused .hostProtocol ↔ s.phase.allowsRun = false := by
  unfold startRun
  cases s.phase.allowsRun <;> simp

theorem deliverOutput_of_not_allowed {s : State} (h : s.phase.allowsOutput s.cfg.flushPolicy = false) :
    deliverOutput s = .refused .hostProtocol := by
  simp [deliverOutput, h]

/-- What output byte hands over where it is allowed (41_dispatch R125): one byte under `incremental`; under `batch` the
rest once the run has ended, and nothing before. -/
theorem deliverOutput_of_allowed {s : State} (h : s.phase.allowsOutput s.cfg.flushPolicy = true) :
    deliverOutput s =
      match s.cfg.flushPolicy with
      | .incremental => .next (deliver 1 s)
      | .batch => if s.phase = .running then .next s else .next (deliverRest s) := by
  rw [deliverOutput, h]; rfl

theorem deliverOutput_answers {s : State} (h : s.phase.allowsOutput s.cfg.flushPolicy = true) :
    ∃ t, deliverOutput s = .next t := by
  rw [deliverOutput_of_allowed h]
  cases s.cfg.flushPolicy with
  | incremental => exact ⟨_, rfl⟩
  | batch => by_cases hp : s.phase = .running <;> simp [hp]

theorem deliverOutput_eq_hostProtocol_iff {s : State} :
    deliverOutput s = .refused .hostProtocol ↔ ¬ s.phase.allowsOutput s.cfg.flushPolicy = true := by
  refine ⟨fun hrefused hallowed => ?_, fun h => deliverOutput_of_not_allowed (Bool.eq_false_iff.mpr h)⟩
  obtain ⟨t, ht⟩ := deliverOutput_answers hallowed
  rw [ht] at hrefused
  cases hrefused

/-- Settles O31: each operation is refused where the table of R120 does not list the phase. -/
theorem hostOperationsRefusedByPhase : Obligations.HostOperationsRefusedByPhase := by
  refine fun s later => ⟨fun buffer hh => ?_, fun hh => ?_, fun hh => ?_, fun hh => ?_⟩
  · rw [step_compile hh, startCompile_eq_hostProtocol_iff, Phase.atRest_eq_false_iff]
  · rw [step_run hh, startRun_eq_hostProtocol_iff, Phase.allowsRun_eq_false_iff]
  · rw [step_readStatus hh, readStatus]; exact nofun
  · rw [step_outputByte hh, deliverOutput_eq_hostProtocol_iff, Phase.allowsOutput_iff]

/-! ### COMPILE (41_dispatch R121, 40_compiler R112) -/

/-- Settles O28: COMPILE starts the pass on an empty Program, and what is still owed of `OUT` changes no state of the
core. -/
theorem compileCommandStartsThePass : Obligations.CompileCommandStartsThePass := by
  intro s buffer later hh hrest hlen
  exact ⟨_, (step_compile hh).trans (startCompile_eq_next.mpr ⟨hrest, hlen, rfl⟩),
    rfl, rfl, rfl, rfl, rfl, rfl, rfl, rfl, rfl, rfl, rfl, rfl⟩

/-- Settles O29: the length is tested once the phase has been. -/
theorem oversizedSourceIsRefused : Obligations.OversizedSourceIsRefused :=
  fun _ _ _ hh hrest hlen => (step_compile hh).trans (startCompile_of_oversized hrest hlen)

/-! ### RUN (41_dispatch R122) -/

/-- Settles O30: the fresh VM has an empty tape, whose cells all read as 0. -/
theorem runCommandStartsAFreshRun : Obligations.RunCommandStartsAFreshRun := by
  intro s later hh hp
  exact ⟨_, (step_run hh).trans (startRun_eq_next.mpr ⟨Phase.allowsRun_iff.mpr hp, rfl⟩),
    rfl, rfl, fun _ => rfl, rfl, rfl, rfl, rfl, rfl, rfl, rfl, rfl, rfl⟩

/-! ### read STATUS (10_state R26 to R28) -/

/-- The three fields of the STATUS register. -/
theorem statusByte_fields (e : BitVec 2) (p : BitVec 3) :
    ((0 : BitVec 3) ++ e ++ p).extractLsb' 5 3 = 0 ∧ ((0 : BitVec 3) ++ e ++ p).extractLsb' 0 3 = p
      ∧ ((0 : BitVec 3) ++ e ++ p).extractLsb' 3 2 = e := by
  revert e p; decide

/-- Settles O32: the answer is the register, whose fields hold the codes of R27 and R28. -/
theorem readStatusReturnsTheRegister : Obligations.ReadStatusReturnsTheRegister := by
  intro s later hh
  obtain ⟨hzero, hphase, herr⟩ := statusByte_fields (errCode s.err) s.phase.code
  refine ⟨s.statusByte, step_readStatus hh, hzero, hphase.trans ?_, herr.trans ?_⟩
  · cases s.phase <;> rfl
  · rcases s.err with - | e
    · rfl
    · cases e <;> rfl

/-! ### output byte (41_dispatch R125) -/

theorem deliver_one_delivered {s : State} (h : s.delivered ≤ s.out.length) :
    (deliver 1 s).delivered = min (s.delivered + 1) s.out.length := by
  simp only [deliver_delivered, List.length_take, List.length_drop]
  omega

section OutputByte
variable {s : State}

theorem deliverOutput_incremental_running (hpol : s.cfg.flushPolicy = .incremental) (hp : s.phase = .running) :
    deliverOutput s = .next (deliver 1 s) := by
  rw [deliverOutput_of_allowed (Phase.allowsOutput_iff.mpr (.inl hp)), hpol]

theorem deliverOutput_incremental_ended (hpol : s.cfg.flushPolicy = .incremental)
    (hp : s.phase = .done ∨ s.phase = .runError) : deliverOutput s = .refused .hostProtocol := by
  refine deliverOutput_of_not_allowed ?_
  rcases hp with hp | hp <;> rw [hp, hpol] <;> rfl

theorem deliverOutput_batch_running (hpol : s.cfg.flushPolicy = .batch) (hp : s.phase = .running) :
    deliverOutput s = .next s := by
  rw [deliverOutput_of_allowed (Phase.allowsOutput_iff.mpr (.inl hp)), hpol]
  exact if_pos hp

theorem deliverOutput_batch_ended (hpol : s.cfg.flushPolicy = .batch) (hp : s.phase = .done ∨ s.phase = .runError) :
    deliverOutput s = .next (deliverRest s) := by
  have hne : s.phase ≠ .running := by rcases hp with hp | hp <;> rw [hp] <;> decide
  rw [deliverOutput_of_allowed (Phase.allowsOutput_iff.mpr (.inr ⟨hpol, hp⟩)), hpol]
  exact if_neg hne

end OutputByte

/-- Settles O33: the four clauses are the four cases of policy and phase. -/
theorem deliveryHandsOverOutInOrder : Obligations.DeliveryHandsOverOutInOrder := by
  intro s later hh
  rw [step_outputByte hh]
  exact ⟨fun hpol hp => ⟨_, deliverOutput_incremental_running hpol hp, rfl, rfl, deliver_one_delivered⟩,
    fun hpol hp => deliverOutput_incremental_ended hpol hp,
    fun hpol hp => deliverOutput_batch_running hpol hp,
    fun hpol hp => ⟨_, deliverOutput_batch_ended hpol hp, rfl, deliverRest_received _, deliverRest_delivered⟩⟩

end Sys2Proof.Machine
end

section
/-! What a step can do, and what it leaves alone: one list of the kinds of step (41_dispatch R133), the frames of
the execute rules and of the compile rules, and the frames of the whole step. -/

namespace Sys2Proof.Machine

/-! ### The kinds of step (41_dispatch R133) -/

/-- Each kind of step that answers a next state, with that state. `op` is the operation that the host issues, if it does,
and `s` the state once the host has taken it from its timeline. The two kinds that apply an instruction's rule leave
the next state to the rule. -/
inductive StepCase (op : Option HostOp) (s : State) : State → Prop
  /-- A character step (40_compiler R100). -/
  | compile {t : State} (c : Byte) (hp : s.phase = .compiling) (hc : s.src[s.spos]? = some c)
      (h : exec (decodeSource c) s = .next t) : StepCase op s t
  /-- The end-of-pass step with no bracket open (40_compiler R109). -/
  | passEnds (hp : s.phase = .compiling) (hn : s.spos = s.src.length) (hs : s.stk = []) :
      StepCase op s { s with phase := .ready }
  /-- The end-of-pass step with a bracket open (40_compiler R109). -/
  | passEndsOpen (hp : s.phase = .compiling) (hn : s.spos = s.src.length) (hs : s.stk ≠ []) :
      StepCase op s { s with err := some .unterminatedLoop, phase := .compileError }
  /-- One executed instruction (41_dispatch R123). -/
  | execute {t : State} (i : Instr) (hp : s.phase = .running) (hi : instrAt s.cfg.paw s.prog s.ip = some i)
      (h : exec i s = .next t) : StepCase op s t
  /-- The terminal step (41_dispatch R128). -/
  | runEnds (hp : s.phase = .running) (hip : s.ip = s.plen) :
      StepCase op s { deliver (owedAtEnd s) s with phase := .done }
  /-- The core rests (60_exceptions R217). -/
  | rest (hp : s.phase.atRest = true) : StepCase op s s
  /-- COMPILE (41_dispatch R121). -/
  | startCompile (buffer : List Byte) (hop : op = some (.compile buffer)) (hp : s.phase.atRest = true)
      (hlen : buffer.length ≤ s.cfg.srcCap) :
      StepCase op s
        { settleOutput s with src := buffer, spos := 0, prog := [], stk := [], phase := .compiling, err := none }
  /-- RUN (41_dispatch R122). -/
  | startRun (hop : op = some .run) (hp : s.phase.allowsRun = true) :
      StepCase op s
        { settleOutput s with ip := 0, dp := 0, tape := [], out := [], delivered := 0, phase := .running, err := none }
  /-- read STATUS (41_dispatch R120). -/
  | readStatus (hop : op = some .readStatus) : StepCase op s { s with statusRead := some s.statusByte }
  /-- output byte, which hands over some number of bytes (41_dispatch R125). -/
  | outputByte (n : Nat) (hop : op = some .outputByte) : StepCase op s (deliver n s)

theorem stepCase_of_coreStep {op : Option HostOp} {s t : State} (h : coreStep s = .next t) : StepCase op s t := by
  rcases coreStep_cases h with ⟨c, hp, hc, he⟩ | ⟨hp, hn, he⟩ | ⟨hp, hip, he⟩ | ⟨w, i, hp, hw, hi, he⟩ | ⟨hp, rfl⟩
  · exact .compile c hp hc he
  · obtain ⟨hs, rfl⟩ | ⟨hs, rfl⟩ := endOfPass_eq_next.mp he
    · exact .passEnds hp hn hs
    · exact .passEndsOpen hp hn hs
  · cases he
    exact .runEnds hp hip
  · exact .execute i hp (instrAt_eq_some_iff.mpr ⟨w, hw, hi⟩) he
  · exact .rest hp

/-- A step that answers a next state is of one of these kinds. -/
theorem stepCase_of_step {s t : State} (h : step s = .next t) : StepCase s.host.head? s.afterWait t := by
  rcases step_cases h with ⟨-, he⟩ | ⟨buffer, hop, he⟩ | ⟨hop, he⟩ | ⟨hop, he⟩ | ⟨hop, he⟩
  · exact stepCase_of_coreStep he
  · obtain ⟨hp, hlen, rfl⟩ := startCompile_eq_next.mp he
    exact .startCompile buffer hop hp hlen
  · obtain ⟨hp, rfl⟩ := startRun_eq_next.mp he
    exact .startRun hop hp
  · obtain rfl := readStatus_eq_next.mp he
    exact .readStatus hop
  · obtain ⟨-, rfl | ⟨n, rfl⟩⟩ := deliverOutput_eq_next he
    · have hnone := StepCase.outputByte (s := s.afterWait) 0 hop
      rwa [deliver_zero] at hnone
    · exact .outputByte n hop

theorem stepCase_of_step_host_nil {s t : State} (hh : s.host = []) (h : step s = .next t) : StepCase none s t := by
  have hcase := stepCase_of_step h
  rwa [afterWait_of_host_nil s hh, hh] at hcase

/-! ### Frames of the execute rules (42_cell_arith to 45_control) -/

section ExecuteFrames
variable {i : Instr} {s t : State} (hp : s.phase = .running) (h : exec i s = .next t)
include hp h

/-- No execute rule writes anything beside the VM (20_memory R63, 41_dispatch R127). -/
theorem exec_running_sameBesideVm : s.sameBesideVm t := by
  rcases exec_running_cases hp h with ⟨f, -, -, rfl⟩ | ⟨-, -, rfl⟩ | ⟨-, -, rfl⟩ | ⟨-, rfl⟩ | ⟨-, -, rfl⟩ | ⟨x, -, rfl⟩ |
    ⟨x, -, -, rfl⟩ <;> exact ⟨rfl, rfl, rfl, rfl, rfl, rfl, rfl, rfl, rfl⟩

/-- Only Increment and Decrement write a cell, and only the current one, which exists. -/
theorem exec_running_tape :
    t.tape = s.tape
      ∨ (i = .increment ∨ i = .decrement) ∧ s.dp < s.cfg.tapeCells ∧ ∃ v, t.tape = Memory.write s.tape s.dp v := by
  rcases exec_running_cases hp h with ⟨f, hi, hdp, rfl⟩ | ⟨-, -, rfl⟩ | ⟨-, -, rfl⟩ | ⟨-, rfl⟩ | ⟨-, -, rfl⟩ |
    ⟨x, -, rfl⟩ | ⟨x, -, -, rfl⟩
  case inl => exact .inr ⟨hi, hdp, _, rfl⟩
  all_goals exact .inl rfl

/-- Only the moves write `dp`, by one and within the tape (10_state R22). -/
theorem exec_running_dp :
    t.dp = s.dp ∨ i = .moveRight ∧ s.dp + 1 < s.cfg.tapeCells ∧ t.dp = s.dp + 1 ∨ i = .moveLeft ∧ t.dp + 1 = s.dp := by
  rcases exec_running_cases hp h with ⟨f, -, -, rfl⟩ | ⟨hi, hdp, rfl⟩ | ⟨hi, hdp, rfl⟩ | ⟨-, rfl⟩ | ⟨-, -, rfl⟩ |
    ⟨x, -, rfl⟩ | ⟨x, -, -, rfl⟩
  case inr.inl => exact .inr (.inl ⟨hi, hdp, rfl⟩)
  case inr.inr.inl => exact .inr (.inr ⟨hi, Nat.sub_add_cancel hdp⟩)
  all_goals exact .inl rfl

/-- Only Output writes `OUT` (10_state R32). -/
theorem exec_running_out : t.out = s.out ∨ i = .output ∧ t.out = s.out ++ [Memory.read s.tape s.dp] := by
  rcases exec_running_cases hp h with ⟨f, -, -, rfl⟩ | ⟨-, -, rfl⟩ | ⟨-, -, rfl⟩ | ⟨-, rfl⟩ | ⟨hi, -, rfl⟩ |
    ⟨x, -, rfl⟩ | ⟨x, -, -, rfl⟩
  case inr.inr.inr.inr.inl => exact .inr ⟨hi, rfl⟩
  all_goals exact .inl rfl

/-- The one error of a run leaves everything but STATUS alone (60_exceptions R205). -/
theorem exec_running_of_runError (ht : t.phase = .runError) : t = { s with phase := .runError, err := some .outOfBounds } := by
  rcases exec_running_cases hp h with ⟨f, -, -, rfl⟩ | ⟨-, -, rfl⟩ | ⟨-, -, rfl⟩ | ⟨-, rfl⟩ | ⟨-, -, rfl⟩ |
    ⟨x, -, rfl⟩ | ⟨x, -, -, rfl⟩
  case inr.inr.inr.inl => rfl
  all_goals exact absurd (hp.symm.trans ht) nofun

end ExecuteFrames

theorem exec_cellArith {i : Instr} {s t : State} (hi : i ∈ [Instr.increment, .decrement]) (hp : s.phase = .running)
    (h : exec i s = .next t) : ∃ c, t = s.addToCell c := by
  rcases List.mem_pair.mp hi with rfl | rfl
  · exact ⟨1, ((exec_increment_running hp).mp h).2⟩
  · exact ⟨255, ((exec_decrement_running hp).mp h).2⟩

/-- Settles O34: both add a byte to the current cell, and a write leaves every other cell alone. -/
theorem cellArithmeticFrame : Obligations.CellArithmeticFrame := by
  intro i s t hi hp _ h
  have hbeside := exec_running_sameBesideVm hp h
  obtain ⟨c, rfl⟩ := exec_cellArith hi hp h
  refine ⟨rfl, rfl, ⟨rfl, rfl⟩, hbeside, ?_⟩
  rintro _ rfl b hb
  exact read_addToCell_of_ne c hb

/-- Settles O35: each clause is the frame of one piece of state over all execute rules. -/
theorem nonStoringInstructionsFrame : Obligations.NonStoringInstructionsFrame := by
  intro i s t hp h hinc hdec
  have hkeep : ¬ isEdgeMove i s → s.sameStatus t := fun hnot =>
    (exec_running_status hp h).elim (fun hedge => absurd hedge.1 hnot) And.right
  refine ⟨fun a => ?_, exec_running_sameBesideVm hp h, fun hout => ?_, fun hr hl => ⟨?_, ?_⟩, fun ht => ?_⟩
  · rcases exec_running_tape hp h with htape | ⟨hi | hi, -⟩
    · rw [htape]
    · exact absurd hi hinc
    · exact absurd hi hdec
  · exact (exec_running_out hp h).resolve_right fun hi => hout hi.1
  · exact (exec_running_dp hp h).resolve_right fun hmove => hmove.elim (fun hi => hr hi.1) fun hi => hl hi.1
  · exact hkeep (not_isEdgeMove_of_not_move hr hl)
  · exact (exec_running_status hp h).elim (fun hedge => absurd hedge.2.1 ht) And.right

/-! ### Frames of the compile rules (40_compiler R113) -/

section CompileFrames
variable {i : Instr} {s t : State} (hp : s.phase = .compiling) (h : exec i s = .next t)
include hp h

theorem exec_compiling_sameBesideCompiler : s.sameBesideCompiler t := by
  rcases exec_compiling_cases hp h with ⟨op, -, -, rfl⟩ | ⟨x, -, -, -, rfl⟩ | ⟨x, -, -, rfl⟩ |
    ⟨x, p, rest, v, -, -, -, -, rfl⟩ | ⟨c, -, rfl⟩ <;> exact ⟨rfl, rfl, rfl, rfl, rfl, rfl, rfl, rfl, rfl, rfl⟩

/-- The one error of a character step leaves everything but STATUS alone (60_exceptions R205); every other character
step leaves STATUS alone. -/
theorem exec_compiling_status :
    s.sameStatus t
      ∨ (∃ x, i = .jump x) ∧ s.stk = [] ∧ t = { s with phase := .compileError, err := some .unmatchedClose } := by
  rcases exec_compiling_cases hp h with ⟨op, -, -, rfl⟩ | ⟨x, -, -, -, rfl⟩ | ⟨x, hi, hs, rfl⟩ |
    ⟨x, p, rest, v, -, -, -, -, rfl⟩ | ⟨c, -, rfl⟩
  case inr.inr.inl => exact .inr ⟨⟨x, hi⟩, hs, rfl⟩
  all_goals exact .inl ⟨rfl, rfl⟩

/-- A character step rewrites no word but the one at the address on top of the stack, and that by `]` alone. -/
theorem exec_compiling_words {j : Nat} (hj : j < s.plen) (hkeep : (∀ x, i ≠ .jump x) ∨ s.stk.head? ≠ some j) :
    t.prog[j]? = s.prog[j]? := by
  rcases exec_compiling_cases hp h with ⟨op, -, -, rfl⟩ | ⟨x, -, -, -, rfl⟩ | ⟨x, -, -, rfl⟩ |
    ⟨x, p, rest, v, hi, hs, -, -, rfl⟩ | ⟨c, -, rfl⟩
  · exact List.getElem?_append_left hj
  · exact List.getElem?_append_left hj
  · rfl
  · rcases hkeep with hnot | htop
    · exact absurd hi (hnot x)
    · have hne : j ≠ p := fun hjp => htop (by rw [hs, hjp]; rfl)
      exact closedProg_getElem?_of_ne hne hj
  · rfl

end CompileFrames

/-- Settles O36: the frames of the compile rules. -/
theorem compileRulesFrame : Obligations.CompileRulesFrame := by
  intro i s t hp h
  refine ⟨exec_compiling_sameBesideCompiler hp h, fun j hj htop => exec_compiling_words hp h hj (.inr htop),
    fun hnot => ⟨fun j hj => exec_compiling_words hp h hj (.inl hnot), ?_⟩⟩
  exact (exec_compiling_status hp h).resolve_right fun ⟨⟨x, hi⟩, _⟩ => hnot x hi

/-! ### Frames of the whole step -/

section StepFrames
variable {op : Option HostOp} {s t : State}

/-- No step writes a parameter (00_scope R9). -/
theorem StepCase.cfg_eq (h : StepCase op s t) : t.cfg = s.cfg := by
  cases h with
  | compile c hp hc he =>
    obtain ⟨hcfg, -⟩ := exec_compiling_sameBesideCompiler hp he
    exact hcfg
  | execute i hp hi he =>
    obtain ⟨hcfg, -⟩ := exec_running_sameBesideVm hp he
    exact hcfg
  | _ => rfl

/-- The Program is written by a character step and by COMPILE. -/
theorem StepCase.prog_eq (h : StepCase op s t) (hp : s.phase ≠ .compiling) (hop : ∀ buffer, op ≠ some (.compile buffer)) :
    t.prog = s.prog := by
  cases h with
  | compile c hc => exact absurd hc hp
  | startCompile buffer hbuf => exact absurd hbuf (hop buffer)
  | execute i hr hi he =>
    obtain ⟨-, hprog, -⟩ := exec_running_sameBesideVm hr he
    exact hprog
  | _ => rfl

/-- Of all kinds of step but RUN, only the execution of an Output writes `OUT`. -/
theorem StepCase.out_eq (h : StepCase op s t) (hop : op ≠ some .run) :
    t.out = s.out
      ∨ s.phase = .running ∧ instrAt s.cfg.paw s.prog s.ip = some .output ∧ t.out = s.out ++ [Memory.read s.tape s.dp] := by
  cases h with
  | compile c hp hc he =>
    obtain ⟨-, -, -, -, hout, -⟩ := exec_compiling_sameBesideCompiler hp he
    exact .inl hout
  | execute i hp hi he =>
    obtain hout | ⟨rfl, hout⟩ := exec_running_out hp he
    · exact .inl hout
    · exact .inr ⟨hp, hi, hout⟩
  | startRun hrun => exact absurd hrun hop
  | _ => exact .inl rfl

end StepFrames

/-- Settles O37: the frames of the parameters and of the Program. -/
theorem onlyTheCompilerWritesTheProgram : Obligations.OnlyTheCompilerWritesTheProgram :=
  fun _ _ h => ⟨(stepCase_of_step h).cfg_eq, fun hp hop => (stepCase_of_step h).prog_eq hp hop⟩

/-- Settles O38: the frame of `OUT`. -/
theorem outGrowsByOutputOnly : Obligations.OutGrowsByOutputOnly :=
  fun _ _ hop h => (stepCase_of_step h).out_eq hop

/-! ### The host's record (20_memory R61) -/

/-- No more of `OUT` has been delivered than it holds, and what has been is what the host received last. -/
def State.recordInOrder (s : State) : Prop :=
  s.delivered ≤ s.out.length ∧ s.out.take s.delivered <:+ s.received

theorem recordInOrder_deliver {s : State} (n : Nat) (h : s.recordInOrder) : (deliver n s).recordInOrder :=
  ⟨deliver_delivered_le n h.1, deliver_received_suffix n h.2⟩

/-- A step that delivers nothing and only adds to `OUT` keeps the record. -/
theorem recordInOrder_of_prefix {s t : State} (h : s.recordInOrder) (hout : s.out <+: t.out)
    (hdel : t.delivered = s.delivered) (hrec : t.received = s.received) : t.recordInOrder := by
  obtain ⟨hle, hsuffix⟩ := h
  obtain ⟨more, hmore⟩ := hout
  rw [State.recordInOrder, hdel, hrec, ← hmore]
  exact ⟨hle.trans (by simp), by rwa [List.take_append_of_le_length hle]⟩

theorem exec_running_out_prefix {i : Instr} {s t : State} (hp : s.phase = .running) (h : exec i s = .next t) :
    s.out <+: t.out := by
  obtain hout | ⟨-, hout⟩ := exec_running_out hp h
  · rw [hout]
  · rw [hout]; exact List.prefix_append ..

theorem received_prefix_deliver (n : Nat) (s : State) : s.received <+: (deliver n s).received :=
  List.prefix_append ..

section Record
variable {op : Option HostOp} {s t : State}

theorem StepCase.received_prefix (h : StepCase op s t) : s.received <+: t.received := by
  cases h with
  | compile c hp hc he =>
    obtain ⟨-, -, -, -, -, -, -, -, hrec, -⟩ := exec_compiling_sameBesideCompiler hp he
    rw [hrec]
  | execute i hp hi he =>
    obtain ⟨-, -, -, -, -, -, -, hrec, -⟩ := exec_running_sameBesideVm hp he
    rw [hrec]
  | runEnds | startCompile | startRun | outputByte => exact received_prefix_deliver ..
  | _ => exact List.prefix_rfl

theorem StepCase.recordInOrder (h : StepCase op s t) (hs : s.recordInOrder) : t.recordInOrder := by
  cases h with
  | compile c hp hc he =>
    obtain ⟨-, -, -, -, hout, -, -, hdel, hrec, -⟩ := exec_compiling_sameBesideCompiler hp he
    exact recordInOrder_of_prefix hs (by rw [hout]) hdel hrec
  | execute i hp hi he =>
    obtain ⟨-, -, -, -, -, -, hdel, hrec, -⟩ := exec_running_sameBesideVm hp he
    exact recordInOrder_of_prefix hs (exec_running_out_prefix hp he) hdel hrec
  | startRun => exact ⟨Nat.zero_le _, List.nil_suffix⟩
  | runEnds | startCompile | outputByte => exact recordInOrder_deliver _ hs
  | _ => exact hs

end Record

/-- Settles O39: the host's record only grows, and stays in order. -/
theorem receivedBytesAreKept : Obligations.ReceivedBytesAreKept := by
  intro s t hle hsuffix h
  obtain ⟨hle', hsuffix'⟩ := (stepCase_of_step h).recordInOrder ⟨hle, hsuffix⟩
  exact ⟨(stepCase_of_step h).received_prefix, hsuffix', hle'⟩

/-! ### Error entry (60_exceptions R205) -/

/-- Settles O20: an active core raises an error in a character step, in the end-of-pass step or at an edge move, and each
of the three is an error entry. -/
theorem errorEntryChangesStatusAlone : Obligations.ErrorEntryChangesStatusAlone := by
  intro s t hh hactive h herr
  cases stepCase_of_step_host_nil hh h with
  | compile c hp hc he =>
    obtain ⟨hphase, -⟩ | ⟨-, -, rfl⟩ := exec_compiling_status hp he
    · simp [hphase, hp] at herr
    · exact ⟨.unmatchedClose, rfl, by simp, by simp [hp]⟩
  | passEndsOpen hp => exact ⟨.unterminatedLoop, rfl, by simp, by simp [hp]⟩
  | execute i hp hi he =>
    have ht : t.phase = .runError :=
      (exec_running_frame hp he).2.resolve_left fun hrun => by simp [hrun] at herr
    refine ⟨.outOfBounds, ?_, by simp [ht], by simp [hp]⟩
    rw [ht]; exact exec_running_of_runError hp he ht
  | passEnds | runEnds => simp at herr
  | rest hp => simp [hactive] at hp
  | startCompile _ hop | startRun hop | readStatus hop | outputByte _ hop => cases hop

end Sys2Proof.Machine
end

section
/-! The well-formed Program (30_encoding R80, 40_compiler R114): its brackets pair up, its instructions but for their
targets determine it, and no word of it is ill-formed. -/

namespace Sys2Proof.Machine

theorem wellFormedWords_iff {paw : Nat} {ws : List Nat} :
    wellFormedWords paw ws = true ↔ ∃ is, decodeProgram paw ws = some is ∧ scanBrackets is 0 [] = some [] := by
  unfold wellFormedWords
  cases decodeProgram paw ws <;> simp [wellFormedInstrs]

/-- Settles O49: the scan that ends with nothing open pairs every bracket with its partner. -/
theorem wellFormedTargetsPairUp : Obligations.WellFormedTargetsPairUp := by
  intro paw ws hwf
  obtain ⟨is, hd, hscan⟩ := wellFormedWords_iff.mp hwf
  obtain ⟨hopen, hclose, -⟩ := scanBrackets_pairs hscan rfl nofun
  simp only [Nat.zero_add, Nat.zero_le, true_and, Nat.sub_zero, List.not_mem_nil, or_false] at hopen hclose
  simp only [instrAt_of_decodeProgram hd, ← decodeProgram_length hd]
  refine ⟨fun p t hp => ?_, hclose⟩
  obtain ⟨hlo, hhi, m, rfl, hm⟩ := hopen p t hp
  exact ⟨hlo, hhi, hm⟩

/-- Two scans that end with nothing open, over the same instructions but for targets and with the same brackets open
before them, are over the same targets: each `]` fixes its own and that of the bracket it closes. -/
theorem eq_of_scanBrackets_eq_nil : ∀ {is js : List Instr} {n : Nat} {opened opened' : List (Nat × Nat)},
    scanBrackets is n opened = some [] → scanBrackets js n opened' = some [] →
    is.map Instr.sourceForm = js.map Instr.sourceForm → opened.map Prod.fst = opened'.map Prod.fst →
      is = js ∧ opened = opened' := by
  intro is
  induction is with
  | nil =>
    intro js n opened opened' h h' hsrc _
    obtain rfl : js = [] := List.map_eq_nil_iff.mp hsrc.symm
    cases h
    cases h'
    exact ⟨rfl, rfl⟩
  | cons x is ih =>
    intro js n opened opened' h h' hsrc hopened
    obtain ⟨y, js, rfl, hxy, htail⟩ := List.map_eq_cons_iff.mp hsrc.symm
    cases x with
    | jumpIfZero t =>
      cases y <;> cases hxy
      rename_i t'
      obtain ⟨rfl, htargets⟩ := ih (opened := (n, t) :: opened) (opened' := (n, t') :: opened') h h' htail.symm
        (by simp [hopened])
      cases htargets
      exact ⟨rfl, rfl⟩
    | jump t =>
      cases y <;> cases hxy
      rcases opened with - | ⟨⟨p, tp⟩, outer⟩
      · cases h
      rcases opened' with - | ⟨⟨p', tp'⟩, outer'⟩
      · cases h'
      simp only [scanBrackets, Option.ite_none_right_eq_some] at h h'
      obtain ⟨⟨rfl, rfl⟩, h⟩ := h
      obtain ⟨⟨rfl, rfl⟩, h'⟩ := h'
      simp only [List.map_cons, List.cons.injEq] at hopened
      obtain ⟨rfl, houter⟩ := hopened
      obtain ⟨rfl, rfl⟩ := ih h h' htail.symm houter
      exact ⟨rfl, rfl⟩
    | comment c => cases h
    | reservedWord z => cases h
    | _ =>
      cases y <;> cases hxy
      obtain ⟨rfl, rfl⟩ := ih h h' htail.symm hopened
      exact ⟨rfl, rfl⟩

/-- Settles O50: the scans of both sequences begin with nothing open. -/
theorem targetsAreDeterminedByBrackets : Obligations.TargetsAreDeterminedByBrackets := fun _ _ his hjs hsrc =>
  (eq_of_scanBrackets_eq_nil (of_decide_eq_true his) (of_decide_eq_true hjs) hsrc rfl).1

/-- The bracket scan takes no comment and no reserved word (30_encoding R80, condition 1). -/
theorem isInstr_of_scanBrackets {is : List Instr} {n : Nat} {opened rest : List (Nat × Nat)} {x : Instr}
    (h : scanBrackets is n opened = some rest) (hx : x ∈ is) : (∀ c, x ≠ .comment c) ∧ ∀ y, x ≠ .reservedWord y := by
  obtain ⟨before, after, rfl⟩ := List.append_of_mem hx
  rw [scanBrackets_append] at h
  obtain ⟨opened', -, h⟩ := Option.bind_eq_some_iff.mp h
  constructor <;> (rintro _ rfl; cases h)

/-- The innermost open bracket is a JumpIfZero of the sequence, with its target. -/
theorem getElem?_of_scanBrackets_cons {is : List Instr} {p t : Nat} {outer : List (Nat × Nat)}
    (h : scanBrackets is 0 [] = some ((p, t) :: outer)) : is[p]? = some (.jumpIfZero t) := by
  obtain hmem | ⟨-, hp⟩ := mem_of_scanBrackets h List.mem_cons_self
  · cases hmem
  · exact hp

end Sys2Proof.Machine
end

section
/-! The registers, the tape and STATUS over every step: `dp` stays on the tape (43_pointer R152), the tape canonical and
on its cells (20_memory R58), and `err` in its phase (10_state R28). -/

namespace Sys2Proof.Machine

/-- IDLE and NONE both have the code 0 (10_state R27, R28). -/
theorem statusByte_powerOn (c : Config) : (State.powerOn c).statusByte = 0 := by
  change (0 : BitVec 3) ++ (0 : BitVec 2) ++ (0 : BitVec 3) = 0
  decide

/-- Settles O40: the values of `State.powerOn`, for every setting of the parameters. -/
theorem powerOnStateAsSpecified : Obligations.PowerOnStateAsSpecified :=
  fun _ => ⟨rfl, rfl, statusByte_powerOn _, rfl, rfl, rfl, rfl, rfl, rfl⟩

/-! ### `dp` (10_state R22) -/

/-- Settles O45: a compile rule leaves `dp` alone, and an execute rule moves it within the tape. -/
theorem dpStaysInRange : Obligations.DpStaysInRange := by
  intro i s t hdp h
  rcases phase_of_exec_eq_next h with hp | hp
  · obtain ⟨hcfg, -, hsame, -⟩ := exec_compiling_sameBesideCompiler hp h
    rw [hcfg, hsame]
    exact ⟨hdp, .inl rfl⟩
  · obtain ⟨hcfg, -⟩ := exec_running_sameBesideVm hp h
    rw [hcfg]
    rcases exec_running_dp hp h with hsame | ⟨hi, hlt, hright⟩ | ⟨hi, hleft⟩
    · exact ⟨hsame ▸ hdp, .inl hsame⟩
    · exact ⟨hright ▸ hlt, .inr (.inl ⟨hi, hright⟩)⟩
    · exact ⟨by omega, .inr (.inr ⟨hi, hleft⟩)⟩

section Steps
variable {op : Option HostOp} {s t : State}

theorem StepCase.dp_lt (h : StepCase op s t) (hdp : s.dp < s.cfg.tapeCells) : t.dp < t.cfg.tapeCells := by
  cases h with
  | compile c hp hc he => exact (dpStaysInRange _ s t hdp he).1
  | execute i hp hi he => exact (dpStaysInRange i s t hdp he).1
  | startRun => exact Nat.zero_lt_of_lt hdp
  | _ => exact hdp

/-! ### The tape (20_memory R58, R60) -/

/-- The tape is canonical and lists no cell that does not exist. -/
def State.tapeInPlace (s : State) : Prop :=
  Memory.wf s.tape = true ∧ Memory.below s.cfg.tapeCells s.tape = true

theorem tapeInPlace_exec_running {i : Instr} (hp : s.phase = .running) (h : exec i s = .next t) (hs : s.tapeInPlace) :
    t.tapeInPlace := by
  obtain ⟨hwf, hbelow⟩ := hs
  obtain ⟨hcfg, -⟩ := exec_running_sameBesideVm hp h
  rw [State.tapeInPlace, hcfg]
  obtain htape | ⟨-, hdp, v, htape⟩ := exec_running_tape hp h <;> rw [htape]
  · exact ⟨hwf, hbelow⟩
  · exact ⟨Memory.wf_write _ v hwf, Memory.below_write hdp hbelow⟩

theorem StepCase.tapeInPlace (h : StepCase op s t) (hs : s.tapeInPlace) : t.tapeInPlace := by
  cases h with
  | compile c hp hc he =>
    obtain ⟨hcfg, -, -, htape, -⟩ := exec_compiling_sameBesideCompiler hp he
    rwa [State.tapeInPlace, hcfg, htape]
  | execute i hp hi he => exact tapeInPlace_exec_running hp he hs
  | startRun => exact ⟨rfl, rfl⟩
  | _ => exact hs

/-! ### STATUS (10_state R28) -/

theorem StepCase.allowsErr (h : StepCase op s t) (hs : s.phase.allowsErr s.err = true) :
    t.phase.allowsErr t.err = true := by
  cases h with
  | compile c hp hc he =>
    obtain ⟨hphase, herr⟩ | ⟨-, -, rfl⟩ := exec_compiling_status hp he
    · rwa [hphase, herr]
    · rfl
  | execute i hp hi he =>
    obtain ⟨-, hphase, herr⟩ | ⟨-, hphase, herr⟩ := exec_running_status hp he
    · rw [hphase, herr]; rfl
    · rwa [hphase, herr]
  | passEnds hp | runEnds hp => rw [hp] at hs; exact hs
  | passEndsOpen | startCompile | startRun => rfl
  | _ => exact hs

end Steps

/-- Settles O47: a tape is written at an existing cell, or emptied by RUN. -/
theorem tapeStaysCanonical : Obligations.TapeStaysCanonical :=
  fun _ _ hwf hbelow h => (stepCase_of_step h).tapeInPlace ⟨hwf, hbelow⟩

/-- In a legal pair the error is there exactly in the error phases, and OutOfBounds exactly in RUN_ERROR. -/
theorem err_of_allowsErr {p : Phase} {e : Option CoreError} (h : p.allowsErr e = true) :
    (e ≠ none ↔ p = .compileError ∨ p = .runError) ∧ (e = some .outOfBounds ↔ p = .runError) := by
  cases p with
  | compileError => obtain rfl | rfl := of_decide_eq_true h <;> decide
  | runError => obtain rfl := of_decide_eq_true h; decide
  | _ => obtain rfl := of_decide_eq_true h; decide

/-- Settles O46: every step keeps the pair legal. -/
theorem statusPairStaysLegal : Obligations.StatusPairStaysLegal :=
  fun _ _ hs h => err_of_allowsErr ((stepCase_of_step h).allowsErr hs)

end Sys2Proof.Machine
end

section
/-! The Program against the source read so far (40_compiler R110, R114): the state of a pass, and how each compile rule
keeps it. -/

namespace Sys2Proof.Machine

/-! ### The commands read -/

/-- The instructions that the source bytes read so far select, comments left out. -/
def State.commandsRead (s : State) : List Instr := ((s.src.take s.spos).filter isCommand).map decodeSource

theorem take_succ_of_getElem? {src : List Byte} {n : Nat} {c : Byte} (h : src[n]? = some c) :
    src.take (n + 1) = src.take n ++ [c] := by
  rw [List.take_add_one, h, Option.toList_some]

theorem isCommand_iff_not_comment {c : Byte} : isCommand c = true ↔ ∀ b, decodeSource c ≠ .comment b := by
  refine ⟨fun hc => ?_, fun h => ?_⟩
  · rcases decodeSource_of_command c (List.contains_iff_mem.mp hc) with h | h | ⟨h, -⟩ <;>
      exact fun b hb => by rw [hb] at h; cases h
  · by_contra hc
    exact h c (decodeSource_of_not_command (isCommand_eq_false_iff.mp (by simpa using hc)))

theorem eq_open_of_decodeSource {c : Byte} {x : Nat} (h : decodeSource c = .jumpIfZero x) : c = 0x5B#8 :=
  Option.some.inj ((encodeSource_decodeSource c).symm.trans (congrArg encodeSource h))

theorem eq_close_of_decodeSource {c : Byte} {x : Nat} (h : decodeSource c = .jump x) : c = 0x5D#8 :=
  Option.some.inj ((encodeSource_decodeSource c).symm.trans (congrArg encodeSource h))

theorem commandsRead_command {s : State} {c : Byte} (hc : s.src[s.spos]? = some c) (hcmd : isCommand c = true) :
    (nextChar s).commandsRead = s.commandsRead ++ [decodeSource c] := by
  simp [State.commandsRead, take_succ_of_getElem? hc, hcmd]

theorem commandsRead_comment {s : State} {c : Byte} (hc : s.src[s.spos]? = some c) (hcmd : isCommand c = false) :
    (nextChar s).commandsRead = s.commandsRead := by
  simp [State.commandsRead, take_succ_of_getElem? hc, hcmd]

/-! ### The state of a pass -/

/-- The Program holds `is`: one instruction per command read, with the open brackets those on the stack, each with the
placeholder target. -/
structure State.PassHolds (s : State) (is : List Instr) : Prop where
  decoded : decodeProgram s.cfg.paw s.prog = some is
  fromSource : is.map Instr.sourceForm = s.commandsRead
  openBrackets : scanBrackets is 0 [] = some (s.stk.map fun p => (p, 0))

theorem State.PassHolds.length_eq {s : State} {is : List Instr} (h : s.PassHolds is) : is.length = s.plen :=
  decodeProgram_length h.decoded

/-- The bracket on top of the stack is an emitted word that holds a JumpIfZero with the placeholder target. -/
theorem State.PassHolds.top {s : State} {is : List Instr} {p : Nat} {rest : List Nat} (h : s.PassHolds is)
    (hs : s.stk = p :: rest) :
    is[p]? = some (.jumpIfZero 0) ∧ ∃ w, s.prog[p]? = some w ∧ decodeWord s.cfg.paw w = .ok (.jumpIfZero 0) := by
  have hopen := h.openBrackets
  rw [hs, List.map_cons] at hopen
  have hp := getElem?_of_scanBrackets_cons hopen
  exact ⟨hp, instrAt_eq_some_iff.mp ((instrAt_of_decodeProgram h.decoded p).trans hp)⟩

theorem State.PassHolds.slen_le {s : State} {is : List Instr} (h : s.PassHolds is) : s.slen ≤ s.plen := by
  have := length_scanBrackets_le h.openBrackets
  simpa [h.length_eq, State.slen] using this

theorem sourceForm_of_plainOp {i : Instr} {op : Nat} (h : plainOp i = some op) : i.sourceForm = i := by
  cases i <;> cases h <;> rfl

theorem scanBrackets_of_plainOp {i : Instr} {op : Nat} (h : plainOp i = some op) (n : Nat) (opened : List (Nat × Nat)) :
    scanBrackets [i] n opened = some opened := by
  cases i <;> cases h <;> rfl

/-- A plain character: its instruction is appended (40_compiler R101 to R105). -/
theorem passHolds_plain {s : State} {is : List Instr} {c : Byte} {op : Nat} (h : s.PassHolds is)
    (hc : s.src[s.spos]? = some c) (hop : plainOp (decodeSource c) = some op) :
    ({ s with prog := s.prog ++ [op], spos := s.spos + 1 } : State).PassHolds (is ++ [decodeSource c]) where
  decoded := decodeProgram_append h.decoded (decodeWord_plainOp hop)
  fromSource := by
    have hcmd : isCommand c = true := isCommand_iff_not_comment.mpr fun b hb => by rw [hb] at hop; cases hop
    rw [List.map_append, h.fromSource, List.map_singleton, sourceForm_of_plainOp hop]
    exact (commandsRead_command hc hcmd).symm
  openBrackets := by
    rw [scanBrackets_append, h.openBrackets, Option.bind_some, scanBrackets_of_plainOp hop]

/-- `[`: a JumpIfZero with the placeholder target is appended, and is open (40_compiler R106). -/
theorem passHolds_open {s : State} {is : List Instr} {c : Byte} {x : Nat} (h : s.PassHolds is)
    (hc : s.src[s.spos]? = some c) (hx : decodeSource c = .jumpIfZero x) :
    ({ s with prog := s.prog ++ [6], stk := s.plen :: s.stk, spos := s.spos + 1 } : State).PassHolds
      (is ++ [.jumpIfZero 0]) where
  decoded := decodeProgram_append h.decoded (decodeWord_jumpIfZero (Nat.two_pow_pos _))
  fromSource := by
    have hcmd : isCommand c = true := isCommand_iff_not_comment.mpr fun b hb => by rw [hb] at hx; cases hx
    obtain rfl := eq_open_of_decodeSource hx
    rw [List.map_append, h.fromSource]
    exact (commandsRead_command hc hcmd).symm
  openBrackets := by
    rw [scanBrackets_append, h.openBrackets, Option.bind_some, h.length_eq, Nat.zero_add]
    rfl

/-- `]`: a Jump to the innermost open bracket is appended, and that bracket is closed with its target (40_compiler
R107). -/
theorem passHolds_close {s : State} {is : List Instr} {c : Byte} {x p w : Nat} {rest : List Nat} (h : s.PassHolds is)
    (hc : s.src[s.spos]? = some c) (hx : decodeSource c = .jump x) (hs : s.stk = p :: rest) (hw : s.prog[p]? = some w)
    (hroom : s.plen < s.cfg.progCap) :
    ({ s with prog := closedProg s.cfg.paw s.prog p w, stk := rest, spos := s.spos + 1 } : State).PassHolds
      (is.set p (.jumpIfZero (s.plen + 1)) ++ [.jump p]) := by
  obtain ⟨hp, w', hw', hdec⟩ := h.top hs
  obtain rfl : w' = w := Option.some.inj (hw'.symm.trans hw)
  obtain ⟨hlt, hget⟩ := List.getElem?_eq_some_iff.mp hp
  have hlen := h.length_eq
  have happend : is.set p (.jumpIfZero (s.plen + 1)) ++ [Instr.jump p]
      = (is ++ [Instr.jump p]).set p (.jumpIfZero (s.plen + 1)) :=
    (List.set_append_left _ _ hlt).symm
  refine ⟨?_, ?_, ?_⟩
  · have hjump : decodeWord s.cfg.paw (makeWord s.cfg.paw 5 p) = .ok (.jump p) :=
      decodeWord_makeWord 5 (lt_two_pow_paw (by omega))
    rw [happend]
    exact decodeProgram_set (decodeProgram_append h.decoded hjump)
      (decodeWord_setTarget_jumpIfZero hdec (lt_two_pow_paw hroom))
  · have hcmd : isCommand c = true := isCommand_iff_not_comment.mpr fun b hb => by rw [hb] at hx; cases hx
    obtain rfl := eq_close_of_decodeSource hx
    have hkeep : (is.set p (.jumpIfZero (s.plen + 1))).map Instr.sourceForm = is.map Instr.sourceForm := by
      have hsame : Instr.sourceForm (.jumpIfZero (s.plen + 1)) = (is.map Instr.sourceForm)[p]'(by simpa using hlt) := by
        rw [List.getElem_map, hget]; rfl
      rw [List.map_set, hsame, List.set_getElem_self]
    rw [List.map_append, hkeep, h.fromSource]
    exact (commandsRead_command hc hcmd).symm
  · have hopen := h.openBrackets
    rw [hs, List.map_cons] at hopen
    have hset := scanBrackets_set (s.plen + 1) hopen (Nat.zero_le p) nofun
    rw [Nat.sub_zero] at hset
    rw [scanBrackets_append, hset, Option.bind_some, List.length_set, hlen, Nat.zero_add]
    exact if_pos ⟨rfl, rfl⟩

/-- A comment: nothing but `SPOS` (40_compiler R108). -/
theorem passHolds_comment {s : State} {is : List Instr} {c b : Byte} (h : s.PassHolds is)
    (hc : s.src[s.spos]? = some c) (hb : decodeSource c = .comment b) :
    ({ s with spos := s.spos + 1 } : State).PassHolds is where
  decoded := h.decoded
  fromSource := by
    have hcmd : isCommand c = false := Bool.eq_false_iff.mpr fun hcmd => isCommand_iff_not_comment.mp hcmd b hb
    rw [h.fromSource]
    exact (commandsRead_comment hc hcmd).symm
  openBrackets := h.openBrackets

/-- A character step that goes on, on a pass whose Program holds what was read, leads to such a pass again. -/
theorem passHolds_exec {s t : State} {is : List Instr} {c : Byte} (h : s.PassHolds is) (hp : s.phase = .compiling)
    (hc : s.src[s.spos]? = some c) (he : exec (decodeSource c) s = .next t) (ht : t.phase = .compiling) :
    ∃ js, t.PassHolds js := by
  rcases exec_compiling_cases hp he with ⟨op, hop, -, rfl⟩ | ⟨x, hx, -, -, rfl⟩ | ⟨x, -, -, rfl⟩ |
    ⟨x, p, rest, v, hx, hs, hroom, hv, rfl⟩ | ⟨b, hb, rfl⟩
  · exact ⟨_, passHolds_plain h hc hop⟩
  · exact ⟨_, passHolds_open h hc hx⟩
  · cases ht
  · obtain ⟨-, w, hw, -⟩ := h.top hs
    obtain ⟨hlt, -⟩ := List.getElem?_eq_some_iff.mp hw
    obtain rfl : w = v := by
      rw [List.getElem?_append_left hlt, hw] at hv
      exact Option.some.inj hv
    exact ⟨_, passHolds_close h hc hx hs hw hroom⟩
  · exact ⟨_, passHolds_comment h hc hb⟩

end Sys2Proof.Machine
end

section
/-! The invariant (`State.Inv`): it holds at power-on, every step keeps it, and the registers fit their widths. -/

namespace Sys2Proof.Machine

/-! ### What the invariant says of the Program -/

section OfInv
variable {s : State} (h : s.Inv)
include h

theorem State.Inv.passHolds (hp : s.phase = .compiling) : ∃ is, s.PassHolds is := by
  obtain ⟨is, hd, hsrc, hopen, -⟩ := h.program
  exact ⟨is, hd, hsrc, hopen hp⟩

theorem State.Inv.wellFormed (hp : s.phase.hasProgram = true) : wellFormedWords s.cfg.paw s.prog = true := by
  obtain ⟨is, hd, -, -, hready⟩ := h.program
  exact wellFormedWords_iff.mpr ⟨is, hd, (hready hp).1⟩

theorem State.Inv.recordInOrder : s.recordInOrder := ⟨h.deliveredFits, h.receivedInOrder⟩

theorem State.Inv.ip_le (hp : s.phase = .running) : s.ip ≤ s.plen := by
  have := h.ipPlaced
  rwa [State.ipInPlace, hp] at this

theorem State.Inv.stk_lt_plen (hp : s.phase = .compiling) {p : Nat} (hmem : p ∈ s.stk) : p < s.plen := by
  obtain ⟨is, hpass⟩ := h.passHolds hp
  obtain ⟨hbelow, -⟩ := scanBrackets_sorted hpass.openBrackets nofun .nil
  have := hbelow (p, 0) (List.mem_map_of_mem hmem)
  rwa [Nat.zero_add, hpass.length_eq] at this

end OfInv

/-- Settles O48: each register's values are bounded by a parameter whose width it has. -/
theorem registersFitTheirWidths : Obligations.RegistersFitTheirWidths := fun _ h =>
  ⟨lt_two_pow_daw h.dpInRange, lt_two_pow_paw h.progFits, fun _ hmem hp => h.stk_lt_plen hp hmem, h.ip_le,
    two_pow_ceilLog2_pred_lt⟩

/-! ### Power-on (70_reset_and_hazards R240) -/

theorem inv_powerOn {c : Config} (h : 0 < c.tapeCells) : (State.powerOn c).Inv where
  someCell := h
  dpInRange := h
  tapeCanonical := rfl
  tapeInRange := rfl
  progFits := Nat.zero_le _
  wordsFit := nofun
  srcFits := Nat.zero_le _
  sposInRange := Nat.zero_le _
  errMatches := rfl
  ipPlaced := trivial
  program := ⟨[], rfl, rfl, nofun, nofun⟩
  deliveredFits := Nat.zero_le _
  receivedInOrder := List.nil_suffix
  outputComplete := nofun

/-- Settles O41: reset is a power-on with 30000 cells. -/
theorem invariantHoldsAtReset : Obligations.InvariantHoldsAtReset := ⟨inv_powerOn (by decide), fun _ => inv_powerOn⟩

/-! ### The parts of the invariant that the Compiler's steps change -/

section Steps
variable {op : Option HostOp} {s t : State}

/-- The Program fits its memory, and each word its width (10_state R29, 30_encoding R75). -/
def State.wordsInPlace (s : State) : Prop := s.plen ≤ s.cfg.progCap ∧ ∀ w ∈ s.prog, w < 2 ^ s.cfg.wordBits

theorem op_lt_two_pow_wordBits {c : Config} {op : Nat} (h : op < 8) : op < 2 ^ c.wordBits := by
  have := makeWord_lt c.paw op 0
  rwa [makeWord_zero _ _ h] at this

/-- Appending a word that fits keeps the words in place while there is room. -/
theorem words_lt_append {c : Config} {ws : List Nat} {w : Nat} (h : ∀ v ∈ ws, v < 2 ^ c.wordBits)
    (hw : w < 2 ^ c.wordBits) : ∀ v ∈ ws ++ [w], v < 2 ^ c.wordBits := by
  simpa [or_imp, forall_and] using ⟨h, hw⟩

theorem wordsInPlace_exec_compiling {i : Instr} (hp : s.phase = .compiling) (he : exec i s = .next t)
    (hs : s.wordsInPlace) : t.wordsInPlace := by
  obtain ⟨hfits, hwords⟩ := hs
  rcases exec_compiling_cases hp he with ⟨op, hop, hroom, rfl⟩ | ⟨x, -, hroom, -, rfl⟩ | ⟨x, -, -, rfl⟩ |
    ⟨x, p, rest, v, -, -, hroom, -, rfl⟩ | ⟨c, -, rfl⟩
  · have hop8 : op < 8 := (plainOp_lt hop).trans (by decide)
    exact ⟨by simpa [State.plen] using hroom, words_lt_append hwords (op_lt_two_pow_wordBits hop8)⟩
  · exact ⟨by simpa [State.plen] using hroom, words_lt_append hwords (op_lt_two_pow_wordBits (by decide))⟩
  · exact ⟨hfits, hwords⟩
  · refine ⟨by simpa [State.plen] using hroom, fun w hw => ?_⟩
    obtain hold | rfl := List.mem_or_eq_of_mem_set hw
    · exact words_lt_append hwords (makeWord_lt ..) w hold
    · exact makeWord_lt ..
  · exact ⟨hfits, hwords⟩

theorem StepCase.wordsInPlace (h : StepCase op s t) (hs : s.wordsInPlace) : t.wordsInPlace := by
  cases h with
  | compile c hp hc he => exact wordsInPlace_exec_compiling hp he hs
  | execute i hp hi he =>
    obtain ⟨hcfg, hprog, -⟩ := exec_running_sameBesideVm hp he
    rwa [State.wordsInPlace, State.plen, hcfg, hprog]
  | startCompile => exact ⟨Nat.zero_le _, nofun⟩
  | _ => exact hs

/-- The source fits its buffer, and `SPOS` the source (40_compiler R112, 10_state R33). -/
def State.sourceInPlace (s : State) : Prop := s.src.length ≤ s.cfg.srcCap ∧ s.spos ≤ s.src.length

theorem sourceInPlace_exec_compiling {i : Instr} {c : Byte} (hp : s.phase = .compiling) (hc : s.src[s.spos]? = some c)
    (he : exec i s = .next t) (hs : s.sourceInPlace) : t.sourceInPlace := by
  obtain ⟨hlt, -⟩ := List.getElem?_eq_some_iff.mp hc
  rcases exec_compiling_cases hp he with ⟨op, -, -, rfl⟩ | ⟨x, -, -, -, rfl⟩ | ⟨x, -, -, rfl⟩ |
    ⟨x, p, rest, v, -, -, -, -, rfl⟩ | ⟨c, -, rfl⟩
  case inr.inr.inl => exact hs
  all_goals exact ⟨hs.1, hlt⟩

theorem StepCase.sourceInPlace (h : StepCase op s t) (hs : s.sourceInPlace) : t.sourceInPlace := by
  cases h with
  | compile c hp hc he => exact sourceInPlace_exec_compiling hp hc he hs
  | execute i hp hi he =>
    obtain ⟨hcfg, -, -, hsrc, hspos, -⟩ := exec_running_sameBesideVm hp he
    rwa [State.sourceInPlace, hcfg, hsrc, hspos]
  | startCompile buffer hop hp hlen => exact ⟨hlen, Nat.zero_le _⟩
  | _ => exact hs

theorem StepCase.programTracksSource (h : StepCase op s t) (hs : s.programTracksSource) : t.programTracksSource := by
  obtain ⟨is, hd, hsrc, hopen, hready⟩ := hs
  cases h with
  | compile c hp hc he =>
    obtain ⟨hphase, -⟩ | ⟨-, -, rfl⟩ := exec_compiling_status hp he
    · have hcompiling : t.phase = .compiling := hphase.trans hp
      obtain ⟨js, hd', hsrc', hopen'⟩ := passHolds_exec ⟨hd, hsrc, hopen hp⟩ hp hc he hcompiling
      exact ⟨js, hd', hsrc', fun _ => hopen', fun hprog => by rw [hcompiling] at hprog; cases hprog⟩
    · exact ⟨is, hd, hsrc, nofun, nofun⟩
  | passEnds hp hn hstk =>
    have hscan := hopen hp
    rw [hstk] at hscan
    exact ⟨is, hd, hsrc, nofun, fun _ => ⟨hscan, hstk, hn⟩⟩
  | passEndsOpen => exact ⟨is, hd, hsrc, nofun, nofun⟩
  | execute i hp hi he =>
    obtain ⟨hcfg, hprog, hstk, hsrc', hspos, -⟩ := exec_running_sameBesideVm hp he
    rw [State.programTracksSource, hcfg, hprog, hstk, hsrc', hspos]
    refine ⟨is, hd, hsrc, fun hc => ?_, fun _ => hready (by rw [hp]; rfl)⟩
    rcases (exec_running_frame hp he).2 with hphase | hphase <;> exact absurd (hphase.symm.trans hc) nofun
  | runEnds hp => exact ⟨is, hd, hsrc, nofun, fun _ => hready (by rw [hp]; rfl)⟩
  | startCompile => exact ⟨[], rfl, rfl, fun _ => rfl, nofun⟩
  | startRun hop hp =>
    refine ⟨is, hd, hsrc, nofun, fun _ => hready ?_⟩
    rcases Phase.allowsRun_iff.mp hp with hp | hp | hp <;> rw [hp] <;> rfl
  | _ => exact ⟨is, hd, hsrc, hopen, hready⟩

/-! ### The parts of the invariant that the VM's steps change -/

/-- An execute rule keeps `ip` within the Program: a bracket's target is at most `PLEN` (45_control R173). -/
theorem ipInPlace_exec_running {i : Instr} (hp : s.phase = .running) (hi : instrAt s.cfg.paw s.prog s.ip = some i)
    (he : exec i s = .next t) (hwf : wellFormedWords s.cfg.paw s.prog = true) : t.ipInPlace := by
  obtain ⟨w, hw, -⟩ := instrAt_eq_some_iff.mp hi
  obtain ⟨hlt, -⟩ := List.getElem?_eq_some_iff.mp hw
  obtain ⟨hopen, hclose⟩ := wellFormedTargetsPairUp _ _ hwf
  have hrunning : ∀ {t : State}, t.phase = .running → t.ip ≤ t.plen → t.ipInPlace := fun hphase hle => by
    rwa [State.ipInPlace, hphase]
  rcases exec_running_cases hp he with ⟨f, -, -, rfl⟩ | ⟨-, -, rfl⟩ | ⟨-, -, rfl⟩ | ⟨-, rfl⟩ | ⟨-, -, rfl⟩ |
    ⟨x, rfl, rfl⟩ | ⟨x, rfl, -, rfl⟩
  case inr.inr.inr.inl => exact hlt
  case inr.inr.inr.inr.inr.inl => exact hrunning hp ((hclose _ _ hi).1.trans hlt).le
  case inr.inr.inr.inr.inr.inr =>
    obtain ⟨-, hle, -⟩ := hopen _ _ hi
    have hnext : (if Memory.read s.tape s.dp = 0 then x else s.ip + 1) ≤ s.plen := by
      split
      · exact hle
      · exact hlt
    exact hrunning hp hnext
  all_goals exact hrunning hp hlt

theorem StepCase.ipInPlace (h : StepCase op s t) (hs : s.Inv) : t.ipInPlace := by
  cases h with
  | compile c hp hc he =>
    obtain ⟨hphase, -⟩ | ⟨-, -, rfl⟩ := exec_compiling_status hp he
    · rw [State.ipInPlace, hphase, hp]; trivial
    · trivial
  | passEnds | passEndsOpen | startCompile => trivial
  | execute i hp hi he => exact ipInPlace_exec_running hp hi he (hs.wellFormed (by rw [hp]; rfl))
  | runEnds hp hip => exact hip
  | startRun => exact Nat.zero_le _
  | _ => exact hs.ipPlaced

/-- An `incremental` run in DONE has delivered all of `OUT` (41_dispatch R125). -/
def State.deliveredWhenDone (s : State) : Prop :=
  s.phase = .done → s.cfg.flushPolicy = .incremental → s.delivered = s.out.length

theorem deliver_delivered_of_all {s : State} (n : Nat) (h : s.delivered = s.out.length) :
    (deliver n s).delivered = s.out.length := by
  simp [h]

theorem owedAtEnd_incremental {s : State} (h : s.cfg.flushPolicy = .incremental) : owedAtEnd s = s.out.length := by
  rw [owedAtEnd, h]

theorem StepCase.deliveredWhenDone (h : StepCase op s t) (hle : s.delivered ≤ s.out.length)
    (hs : s.deliveredWhenDone) : t.deliveredWhenDone := by
  cases h with
  | compile c hp hc he =>
    obtain ⟨hphase, -⟩ | ⟨-, -, rfl⟩ := exec_compiling_status hp he
    · exact fun hdone => absurd (hp.symm.trans (hphase.symm.trans hdone)) nofun
    · exact nofun
  | execute i hp hi he =>
    rcases (exec_running_frame hp he).2 with hphase | hphase <;>
      exact fun hdone => absurd (hphase.symm.trans hdone) nofun
  | runEnds =>
    intro _ hpol
    have howed : owedAtEnd s = s.out.length := owedAtEnd_incremental hpol
    rw [howed]
    exact deliverRest_delivered hle
  | outputByte n => exact fun hdone hpol => deliver_delivered_of_all n (hs hdone hpol)
  | passEnds | passEndsOpen | startCompile | startRun => exact nofun
  | _ => exact hs

/-! ### The invariant over every step -/

theorem StepCase.inv (h : StepCase op s t) (hs : s.Inv) : t.Inv := by
  obtain ⟨hwf, hbelow⟩ := h.tapeInPlace ⟨hs.tapeCanonical, hs.tapeInRange⟩
  obtain ⟨hprog, hwords⟩ := h.wordsInPlace ⟨hs.progFits, hs.wordsFit⟩
  obtain ⟨hsrc, hspos⟩ := h.sourceInPlace ⟨hs.srcFits, hs.sposInRange⟩
  obtain ⟨hdelivered, hreceived⟩ := h.recordInOrder hs.recordInOrder
  exact
    { someCell := h.cfg_eq ▸ hs.someCell
      dpInRange := h.dp_lt hs.dpInRange
      tapeCanonical := hwf
      tapeInRange := hbelow
      progFits := hprog
      wordsFit := hwords
      srcFits := hsrc
      sposInRange := hspos
      errMatches := h.allowsErr hs.errMatches
      ipPlaced := h.ipInPlace hs
      program := h.programTracksSource hs.program
      deliveredFits := hdelivered
      receivedInOrder := hreceived
      outputComplete := h.deliveredWhenDone hs.deliveredFits hs.outputComplete }

end Steps

/-- The host's timeline is no part of the invariant. -/
theorem State.Inv.afterWait {s : State} (h : s.Inv) : s.afterWait.Inv := { h with }

/-- Settles O42: each part of the invariant is kept by every kind of step. -/
theorem everyStepKeepsTheInvariant : Obligations.EveryStepKeepsTheInvariant :=
  fun _ _ hs h => (stepCase_of_step h).inv hs.afterWait

end Sys2Proof.Machine
end

section
/-! Completion: what a good state's step answers (40_compiler section 4, 41_dispatch R130), and what a run leaves to the
host when it ends (41_dispatch R125). -/

namespace Sys2Proof.Machine

/-! ### The compile rules -/

/-- The seven instructions that the command characters select. -/
def sourceInstrs : List Instr := [.increment, .decrement, .moveRight, .moveLeft, .output, .jumpIfZero 0, .jump 0]

theorem decodeSource_mem_sourceInstrs : ∀ c ∈ commandBytes, decodeSource c ∈ sourceInstrs := by decide

theorem sourceInstrs_cases : ∀ i ∈ sourceInstrs, (plainOp i).isSome ∨ i = .jumpIfZero 0 ∨ i = .jump 0 := by decide

/-- In a good pass with room for a word, a compile rule answers a next state. -/
theorem exec_compiling_answers {s : State} {i : Instr} (h : s.Inv) (hp : s.phase = .compiling)
    (hroom : s.plen < s.cfg.progCap) (hi : i ∈ sourceInstrs) : ∃ t, exec i s = .next t := by
  obtain ⟨is, hpass⟩ := h.passHolds hp
  rcases sourceInstrs_cases i hi with hplain | rfl | rfl
  · obtain ⟨op, hop⟩ := Option.isSome_iff_exists.mp hplain
    exact ⟨_, (exec_plain_compiling hop hp).mpr ⟨hroom, rfl⟩⟩
  · exact ⟨_, (exec_open_compiling hp).mpr ⟨hroom, hpass.slen_le.trans_lt hroom, rfl⟩⟩
  · cases hs : s.stk with
    | nil => exact ⟨_, exec_close_compiling_nil hp hs⟩
    | cons p rest =>
      obtain ⟨-, w, hw, -⟩ := hpass.top hs
      exact ⟨_, exec_close_of_open hp hs hw hroom⟩

/-- Settles O27: every rule but that of a stray `]` emits one word and reads one byte. -/
theorem compileRulesComplete : Obligations.CompileRulesComplete := by
  intro s i h hp hroom hi
  obtain ⟨t, ht⟩ := exec_compiling_answers h hp hroom hi
  refine ⟨t, ht, ?_⟩
  rcases exec_compiling_cases hp ht with ⟨op, hop, -, rfl⟩ | ⟨x, rfl, -, -, rfl⟩ | ⟨x, rfl, hs, rfl⟩ |
    ⟨x, p, rest, v, rfl, hs, -, -, rfl⟩ | ⟨c, rfl, rfl⟩
  · exact .inr ⟨(by rintro rfl; cases hop), hp, rfl, by simp [State.plen]⟩
  · exact .inr ⟨nofun, hp, rfl, by simp [State.plen]⟩
  · obtain rfl : x = 0 := by simpa using hi
    exact .inl ⟨rfl, hs, rfl, rfl, rfl⟩
  · exact .inr ⟨fun _ => by simp [hs], hp, rfl, by simp [State.plen]⟩
  · simp at hi

/-- A character step of a good pass goes on, or finds the Program memory full. -/
theorem exec_decodeSource_withinContract {s : State} (h : s.Inv) (hp : s.phase = .compiling) (c : Byte) :
    withinContract (exec (decodeSource c) s) := by
  by_cases hc : c ∈ commandBytes
  · by_cases hroom : s.plen < s.cfg.progCap
    · obtain ⟨t, ht⟩ := exec_compiling_answers h hp hroom (decodeSource_mem_sourceInstrs c hc)
      rw [ht]; trivial
    · by_cases hstray : c = 0x5D#8 ∧ s.stk = []
      · obtain ⟨rfl, hs⟩ := hstray
        rw [decodeSource_close, exec_close_compiling_nil hp hs]; trivial
      · rw [exec_command_of_full hc hp (Nat.le_of_not_lt hroom) fun hclose hs => hstray ⟨hclose, hs⟩]
        exact .inl rfl
  · rw [decodeSource_of_not_command hc, exec_comment_compiling c hp]; trivial

theorem endOfPass_answers (s : State) : ∃ t, endOfPass s = .next t := by
  by_cases hs : s.stk = []
  · exact ⟨_, endOfPass_eq_next.mpr (.inl ⟨hs, rfl⟩)⟩
  · exact ⟨_, endOfPass_eq_next.mpr (.inr ⟨hs, rfl⟩)⟩

theorem compileStep_withinContract {s : State} (h : s.Inv) (hp : s.phase = .compiling) :
    withinContract (compileStep s) := by
  cases hc : s.src[s.spos]? with
  | some c =>
    rw [compileStep_of_getElem? hc]
    exact exec_decodeSource_withinContract h hp c
  | none =>
    have hend : s.spos = s.src.length := h.sposInRange.antisymm (List.getElem?_eq_none_iff.mp hc)
    obtain ⟨t, ht⟩ := endOfPass_answers s
    simp only [compileStep, hc, if_pos hend, ht]
    trivial

/-! ### The execute rules -/

/-- With `dp` on the tape, an execute rule answers a next state. -/
theorem exec_running_answers {s : State} {i : Instr} (hp : s.phase = .running) (hdp : s.dp < s.cfg.tapeCells)
    (hi : (∀ c, i ≠ .comment c) ∧ ∀ x, i ≠ .reservedWord x) : ∃ t, exec i s = .next t := by
  obtain ⟨hcomment, hreserved⟩ := hi
  cases i with
  | increment => exact ⟨_, exec_increment_eq_addToCell hp hdp⟩
  | decrement => exact ⟨_, exec_decrement_eq_addToCell hp hdp⟩
  | moveRight => rw [exec_moveRight_running hp]; split <;> exact ⟨_, rfl⟩
  | moveLeft => rw [exec_moveLeft_running hp]; split <;> exact ⟨_, rfl⟩
  | output => exact ⟨_, (exec_output_running hp).mpr ⟨hdp, rfl⟩⟩
  | jumpIfZero x => exact ⟨_, (exec_jumpIfZero_running hp).mpr ⟨hdp, rfl⟩⟩
  | jump x => exact ⟨_, exec_jump_running x hp⟩
  | comment c => exact absurd rfl (hcomment c)
  | reservedWord x => exact absurd rfl (hreserved x)

/-- Every index below `PLEN` of a well-formed Program holds an instruction of the VM (30_encoding R80). -/
theorem instrAt_of_wellFormed {paw n : Nat} {ws : List Nat} (hwf : wellFormedWords paw ws = true) (hn : n < ws.length) :
    ∃ i, instrAt paw ws n = some i ∧ (∀ c, i ≠ .comment c) ∧ ∀ x, i ≠ .reservedWord x := by
  obtain ⟨is, hd, hscan⟩ := wellFormedWords_iff.mp hwf
  have hn' : n < is.length := decodeProgram_length hd ▸ hn
  exact ⟨is[n], (instrAt_of_decodeProgram hd n).trans (List.getElem?_eq_getElem hn'),
    isInstr_of_scanBrackets hscan (List.getElem_mem hn')⟩

/-- The dispatch step of a good run answers a next state. -/
theorem dispatchStep_answers {s : State} (h : s.Inv) (hp : s.phase = .running) : ∃ t, dispatchStep s = .next t := by
  obtain hend | hlt := (h.ip_le hp).eq_or_lt
  · exact ⟨_, dispatchStep_of_end hend⟩
  · obtain ⟨i, hat, hi⟩ := instrAt_of_wellFormed (h.wellFormed (by rw [hp]; rfl)) hlt
    rw [dispatchStep_of_instrAt hat]
    exact exec_running_answers hp h.dpInRange hi

/-! ### The whole step -/

theorem withinContract_of_answers {r : Result} (h : ∃ t, r = .next t) : withinContract r := by
  obtain ⟨t, rfl⟩ := h
  trivial

theorem coreStep_answers {s : State} (h : s.Inv) (hp : s.phase ≠ .compiling) : ∃ t, coreStep s = .next t := by
  by_cases hr : s.phase = .running
  · rw [coreStep_of_running hr]
    exact dispatchStep_answers h hr
  · have hrest : s.phase.atRest = true := by
      rw [← Bool.not_eq_false, Phase.atRest_eq_false_iff]
      exact fun hactive => hactive.elim hp hr
    exact ⟨s, coreStep_atRest hrest⟩

theorem coreStep_withinContract {s : State} (h : s.Inv) : withinContract (coreStep s) := by
  by_cases hp : s.phase = .compiling
  · rw [coreStep_of_compiling hp]
    exact compileStep_withinContract h hp
  · exact withinContract_of_answers (coreStep_answers h hp)

theorem startCompile_withinContract (buffer : List Byte) (s : State) : withinContract (startCompile buffer s) := by
  unfold startCompile
  split
  · exact .inr (.inr rfl)
  · split
    · exact .inr (.inl rfl)
    · trivial

theorem startRun_withinContract (s : State) : withinContract (startRun s) := by
  unfold startRun
  split
  · exact .inr (.inr rfl)
  · trivial

theorem deliverOutput_withinContract (s : State) : withinContract (deliverOutput s) := by
  by_cases h : s.phase.allowsOutput s.cfg.flushPolicy = true
  · exact withinContract_of_answers (deliverOutput_answers h)
  · rw [deliverOutput_eq_hostProtocol_iff.mpr h]
    exact .inr (.inr rfl)

/-- Settles O43: the core's own step in a good state, and the host's operations in any state. -/
theorem goodStatesStopOnlyAtNamedLimits : Obligations.GoodStatesStopOnlyAtNamedLimits := by
  intro s h
  cases hh : s.host with
  | nil =>
    rw [step_eq_coreStep hh]
    exact coreStep_withinContract h
  | cons op later =>
    cases op with
    | wait =>
      rw [step_of_hostWaits (.inr (by rw [hh]; rfl))]
      exact coreStep_withinContract h.afterWait
    | compile buffer => rw [step_compile hh]; exact startCompile_withinContract ..
    | run => rw [step_run hh]; exact startRun_withinContract _
    | readStatus => rw [step_readStatus hh]; trivial
    | outputByte => rw [step_outputByte hh]; exact deliverOutput_withinContract _

/-! ### A good run (41_dispatch R130) -/

/-- A good run, or its end, with no operation of the host to come. -/
def State.goodRun (s : State) : Prop :=
  s.Inv ∧ s.host = [] ∧ (s.phase = .running ∨ s.phase = .done ∨ s.phase = .runError)

theorem State.goodRun.step {s : State} (h : s.goodRun) : ∃ t, step s = .next t ∧ t.goodRun := by
  obtain ⟨hinv, hh, hphase⟩ := h
  have hne : s.phase ≠ .compiling := by rcases hphase with hp | hp | hp <;> rw [hp] <;> decide
  obtain ⟨t, ht⟩ := coreStep_answers hinv hne
  have hstep : Machine.step s = .next t := (step_eq_coreStep hh).trans ht
  refine ⟨t, hstep, everyStepKeepsTheInvariant s t hinv hstep, ?_⟩
  cases stepCase_of_step_host_nil hh hstep with
  | execute i hp hi he =>
    obtain ⟨hhost, hp'⟩ := exec_running_frame hp he
    exact ⟨hhost.trans hh, hp'.imp_right .inr⟩
  | runEnds => exact ⟨hh, .inr (.inl rfl)⟩
  | rest => exact ⟨hh, hphase⟩
  | compile _ hp | passEnds hp | passEndsOpen hp => exact absurd hp hne
  | startCompile _ hop | startRun hop | readStatus hop | outputByte _ hop => cases hop

theorem State.goodRun.steps (k : Nat) : ∀ {s : State}, s.goodRun → ∃ t, steps k s = .next t ∧ t.goodRun := by
  induction k with
  | zero => exact fun {s} h => ⟨s, rfl, h⟩
  | succ k ih =>
    intro s h
    obtain ⟨s', hstep, h'⟩ := h.step
    rw [steps_succ, hstep, andThen_next]
    exact ih h'

/-- Settles O44: a good run goes on or rests after every step. -/
theorem runsOnlyEndInDoneOrRunError : Obligations.RunsOnlyEndInDoneOrRunError := by
  intro s k hinv hp hh
  obtain ⟨t, ht, -, -, hphase⟩ := State.goodRun.steps k ⟨hinv, hh, .inl hp⟩
  exact ⟨t, ht, hphase⟩

/-! ### The bytes of a run that ended in DONE (41_dispatch R125) -/

theorem out_suffix_deliverRest {s : State} (h : s.recordInOrder) : s.out <:+ (deliverRest s).received := by
  obtain ⟨hle, hsuffix⟩ := recordInOrder_deliver s.out.length h
  have hall : (deliver s.out.length s).delivered = s.out.length := deliverRest_delivered h.1
  rw [deliver_out, hall, List.take_length] at hsuffix
  exact hsuffix

theorem settleOutput_of_done {s : State} (h : s.phase = .done) : settleOutput s = deliverRest s := by
  obtain ⟨-, hsettle⟩ | ⟨hne, -⟩ := settleOutput_cases s
  · exact hsettle
  · exact absurd h hne

section Delivery
variable {op : Option HostOp} {s t : State}

/-- The step that ends an `incremental` run hands over what is left of `OUT`. -/
theorem StepCase.delivers_at_end (h : StepCase op s t) (hpol : s.cfg.flushPolicy = .incremental)
    (hp : s.phase = .running) (ht : t.phase = .done) : t.out = s.out ∧ t.received = (deliverRest s).received := by
  cases h with
  | runEnds =>
    have howed : owedAtEnd s = s.out.length := owedAtEnd_incremental hpol
    rw [howed]
    exact ⟨rfl, rfl⟩
  | execute i _ hi he =>
    rcases (exec_running_frame hp he).2 with hphase | hphase <;> exact absurd (hphase.symm.trans ht) nofun
  | compile _ hc | passEnds hc | passEndsOpen hc => exact absurd (hp.symm.trans hc) nofun
  | startCompile buffer hop hrest => rw [hp] at hrest; cases hrest
  | startRun hop hrun => rw [hp] at hrun; cases hrun
  | _ => exact absurd (hp.symm.trans ht) nofun

/-- What leaves DONE hands over what is left of `OUT`. -/
theorem StepCase.delivers_on_leaving (h : StepCase op s t) (hp : s.phase = .done) (ht : t.phase ≠ .done) :
    t.received = (deliverRest s).received := by
  cases h with
  | startCompile | startRun => rw [settleOutput_of_done hp]
  | compile _ hr | passEnds hr | passEndsOpen hr | execute _ hr | runEnds hr => exact absurd (hp.symm.trans hr) nofun
  | _ => exact absurd hp ht

end Delivery

/-- Settles O60: the terminal step and the operations that leave DONE both hand over the rest of `OUT`. -/
theorem completedRunsDeliverTheirOutput : Obligations.CompletedRunsDeliverTheirOutput := by
  intro s t hinv h
  have hcase := stepCase_of_step h
  have hrest : (deliverRest s.afterWait).received = s.received ++ s.out.drop s.delivered := deliverRest_received _
  have hsuffix : s.out <:+ (deliverRest s.afterWait).received := out_suffix_deliverRest hinv.afterWait.recordInOrder
  refine ⟨fun hpol hp ht => ?_, fun hp ht => ?_⟩
  · obtain ⟨hout, hreceived⟩ := hcase.delivers_at_end hpol hp ht
    exact ⟨hout, hreceived.trans hrest, hreceived ▸ hsuffix⟩
  · have hreceived := hcase.delivers_on_leaving hp ht
    exact ⟨hreceived.trans hrest, hreceived ▸ hsuffix⟩

end Sys2Proof.Machine
end

section
/-! Runs: what several steps of a run come to (42_cell_arith R142, 45_control R172, 41_dispatch R129), and runs on a
longer tape (43_pointer R153). -/

namespace Sys2Proof.Machine

/-! ### Cell arithmetic (42_cell_arith R142) -/

/-- Adding a byte and then the byte that cancels it modulo 256 leaves the tape as it was. -/
theorem addToCell_addToCell_cancel {s : State} {c d : Byte} (hcd : c + d = 0) (hwf : Memory.wf s.tape = true) :
    (s.addToCell c).addToCell d = { s with ip := s.ip + 2 } := by
  have hread : Memory.read (s.addToCell c).tape s.dp = Memory.read s.tape s.dp + c := Memory.read_write_same hwf
  have htape : ((s.addToCell c).addToCell d).tape = s.tape := by
    refine Memory.ext_of_wf (Memory.wf_write _ _ (Memory.wf_write _ _ hwf)) hwf fun a => ?_
    by_cases ha : a = s.dp
    · subst ha
      refine (Memory.read_write_same (Memory.wf_write _ _ hwf)).trans ?_
      exact (congrArg (· + d) hread).trans (by rw [BitVec.add_assoc, hcd]; exact BitVec.add_zero _)
    · exact (read_addToCell_of_ne (s := s.addToCell c) d ha).trans (read_addToCell_of_ne c ha)
  exact congrArg (fun m => ({ s with tape := m, ip := s.ip + 2 } : State)) htape

/-- Settles O52: the two instructions add the bytes 1 and 255, whose sum is 0 modulo 256. -/
theorem incrementAndDecrementUndo : Obligations.IncrementAndDecrementUndo := by
  rintro i j s t (⟨rfl, rfl⟩ | ⟨rfl, rfl⟩) hp hwf h
  · obtain ⟨hdp, rfl⟩ := (exec_increment_running hp).mp h
    exact (exec_decrement_eq_addToCell (s := s.addToCell 1) hp hdp).trans
      (congrArg _ (addToCell_addToCell_cancel (by decide) hwf))
  · obtain ⟨hdp, rfl⟩ := (exec_decrement_running hp).mp h
    exact (exec_increment_eq_addToCell (s := s.addToCell 255) hp hdp).trans
      (congrArg _ (addToCell_addToCell_cancel (by decide) hwf))

/-- With no operation of the host to come, a step of a run executes the instruction at `ip`. -/
theorem step_eq_exec_instrAt {s : State} {i : Instr} (hh : s.host = []) (hp : s.phase = .running)
    (hi : instrAt s.cfg.paw s.prog s.ip = some i) : step s = exec i s := by
  rw [step_eq_coreStep hh, coreStep_of_running hp, dispatchStep_of_instrAt hi]

/-- Settles O53, by induction on the number of Increments: the first adds 1, and the rest run on from there. -/
theorem repeatedIncrementsAddModulo256 : Obligations.RepeatedIncrementsAddModulo256 := by
  intro k
  induction k with
  | zero =>
    intro s _ _ _ _ _
    exact ⟨s, rfl, (Nat.mod_eq_of_lt (Memory.read s.tape s.dp).isLt).symm, fun _ _ => rfl, rfl⟩
  | succ k ih =>
    intro s hp hh hdp hwf hcode
    have hcode' : ∀ j, j < k → instrAt s.cfg.paw s.prog (s.ip + 1 + j) = some .increment := fun j hj => by
      rw [Nat.add_assoc, Nat.add_comm 1 j]
      exact hcode (j + 1) (by omega)
    obtain ⟨t, hsteps, hcell, hother, ht⟩ := ih (s.addToCell 1) hp hh hdp (Memory.wf_write _ _ hwf) hcode'
    refine ⟨t, ?_, ?_, fun a ha => (hother a ha).trans (read_addToCell_of_ne 1 ha), ht.trans ?_⟩
    · rw [steps_succ, step_eq_exec_instrAt hh hp (hcode 0 k.succ_pos), exec_increment_eq_addToCell hp hdp, andThen_next,
        hsteps]
    · have hfirst : (Memory.read (s.addToCell 1).tape s.dp).toNat = ((Memory.read s.tape s.dp).toNat + 1) % 256 :=
        read_addToCell_dp 1 hwf
      have hrest : (Memory.read t.tape s.dp).toNat = ((Memory.read (s.addToCell 1).tape s.dp).toNat + k) % 256 := hcell
      omega
    · have hip : s.ip + 1 + k = s.ip + (k + 1) := by omega
      exact congrArg (fun n => ({ s with tape := t.tape, ip := n } : State)) hip

/-! ### Loops (45_control R172, 41_dispatch R129) -/

theorem step_jump {s : State} {p : Nat} (hh : s.host = []) (hp : s.phase = .running)
    (hi : instrAt s.cfg.paw s.prog s.ip = some (.jump p)) : step s = .next { s with ip := p } := by
  rw [step_eq_exec_instrAt hh hp hi, exec_jump_running p hp]

theorem step_jumpIfZero {s : State} {x : Nat} (hh : s.host = []) (hp : s.phase = .running) (hdp : s.dp < s.cfg.tapeCells)
    (hi : instrAt s.cfg.paw s.prog s.ip = some (.jumpIfZero x)) :
    step s = .next { s with ip := if Memory.read s.tape s.dp = 0 then x else s.ip + 1 } := by
  rw [step_eq_exec_instrAt hh hp hi]
  exact (exec_jumpIfZero_running hp).mpr ⟨hdp, rfl⟩

theorem State.Inv.wellFormed_of_running {s : State} (h : s.Inv) (hp : s.phase = .running) :
    wellFormedWords s.cfg.paw s.prog = true :=
  h.wellFormed (by rw [hp]; rfl)

/-- Settles O54: the Jump's target is a JumpIfZero past the Jump. -/
theorem loopRetestsCellAtItsHead : Obligations.LoopRetestsCellAtItsHead := by
  intro s p hinv hp hh hi
  obtain ⟨-, hhead⟩ := (wellFormedTargetsPairUp _ _ (hinv.wellFormed_of_running hp)).2 _ _ hi
  rw [steps_succ, step_jump hh hp hi, andThen_next, steps_succ,
    step_jumpIfZero (s := { s with ip := p }) hh hp hinv.dpInRange hhead, andThen_next, steps_zero]

/-- Settles O55: the word before the JumpIfZero's target is the Jump back to it. -/
theorem loopIsSkippedOnZeroCell : Obligations.LoopIsSkippedOnZeroCell := by
  intro s t hinv hp hh hi hzero
  obtain ⟨hlo, hhi, hjump⟩ := (wellFormedTargetsPairUp _ _ (hinv.wellFormed_of_running hp)).1 _ _ hi
  have ht : t - 1 + 1 = t := by omega
  refine ⟨t - 1, ?_, by omega, (by omega : t - 1 < s.prog.length), hjump⟩
  rw [step_jumpIfZero hh hp hinv.dpInRange hi, if_pos hzero, ht]

theorem andThen_assoc (r : Result) (k l : State → Result) :
    andThen (andThen r k) l = andThen r fun s => andThen (k s) l := by
  cases r <;> rfl

/-- The last step of a run, taken apart. -/
theorem steps_succ_last (k : Nat) : ∀ s : State, steps (k + 1) s = andThen (steps k s) step := by
  induction k with
  | zero =>
    intro s
    rw [steps_succ, steps_zero, andThen_next]
    cases step s <;> rfl
  | succ k ih =>
    intro s
    rw [steps_succ, steps_succ k, andThen_assoc]
    exact congrArg (andThen (step s)) (funext ih)

/-- The index that an empty loop at `p` stands at after `k` steps. -/
def emptyLoopIp (p k : Nat) : Nat := if k % 2 = 0 then p else p + 1

theorem emptyLoopIp_even {p k : Nat} (hk : k % 2 = 0) : emptyLoopIp p k = p ∧ emptyLoopIp p (k + 1) = p + 1 :=
  ⟨if_pos hk, if_neg (by omega)⟩

theorem emptyLoopIp_odd {p k : Nat} (hk : k % 2 = 1) : emptyLoopIp p k = p + 1 ∧ emptyLoopIp p (k + 1) = p :=
  ⟨if_neg (by omega), if_pos (by omega)⟩

/-- Settles O56, by induction on the number of steps: at an even one the cell sends the run into the loop, and at an odd
one the Jump sends it back. -/
theorem emptyLoopRunsForEver : Obligations.EmptyLoopRunsForEver := by
  intro s p k hp hh hip hdp hcell hopen hclose
  suffices h : steps k s = .next { s with ip := emptyLoopIp p k } from ⟨_, h, rfl⟩
  induction k with
  | zero => rw [steps_zero]; exact congrArg (fun n => Host.Outcome.next ({ s with ip := n } : State)) hip
  | succ k ih =>
    rw [steps_succ_last, ih, andThen_next]
    rcases Nat.mod_two_eq_zero_or_one k with hk | hk
    · obtain ⟨hnow, hthen⟩ := emptyLoopIp_even (p := p) hk
      rw [hnow, hthen, step_jumpIfZero (s := { s with ip := p }) hh hp hdp hopen, if_neg hcell]
    · obtain ⟨hnow, hthen⟩ := emptyLoopIp_odd (p := p) hk
      rw [hnow, hthen, step_jump (s := { s with ip := p + 1 }) hh hp hclose]

/-! ### A longer tape (43_pointer R153) -/

theorem exec_withTapeCells {s t : State} {i : Instr} {n : Nat} (hp : s.phase = .running) (hn : s.cfg.tapeCells ≤ n)
    (h : exec i s = .next t) (ht : t.phase ≠ .runError) : exec i (s.withTapeCells n) = .next (t.withTapeCells n) := by
  have hp' : (s.withTapeCells n).phase = .running := hp
  cases i with
  | increment =>
    obtain ⟨hdp, rfl⟩ := (exec_increment_running hp).mp h
    exact (exec_increment_running hp').mpr ⟨hdp.trans_le hn, rfl⟩
  | decrement =>
    obtain ⟨hdp, rfl⟩ := (exec_decrement_running hp).mp h
    exact (exec_decrement_running hp').mpr ⟨hdp.trans_le hn, rfl⟩
  | moveRight =>
    rw [exec_moveRight_running hp] at h
    split at h
    · cases h; exact absurd rfl ht
    · rename_i hdp
      cases h
      obtain ⟨-, hmove, -⟩ := moveRightMovesOrFaults
      exact hmove (s.withTapeCells n) hp' ((Nat.lt_of_not_le hdp).trans_le hn)
  | moveLeft =>
    rw [exec_moveLeft_running hp] at h
    split at h
    · cases h; exact absurd rfl ht
    · rename_i hdp
      cases h
      obtain ⟨-, hmove, -⟩ := moveLeftMovesOrFaults
      exact hmove (s.withTapeCells n) hp' (Nat.pos_of_ne_zero hdp)
  | output =>
    obtain ⟨hdp, rfl⟩ := (exec_output_running hp).mp h
    exact (exec_output_running hp').mpr ⟨hdp.trans_le hn, rfl⟩
  | jumpIfZero x =>
    obtain ⟨hdp, rfl⟩ := (exec_jumpIfZero_running hp).mp h
    exact (exec_jumpIfZero_running hp').mpr ⟨hdp.trans_le hn, rfl⟩
  | jump x =>
    rw [exec_jump_running x hp] at h
    cases h
    exact exec_jump_running x hp'
  | comment c => rw [exec_comment_running c hp] at h; cases h
  | reservedWord x => cases h

theorem step_withTapeCells {s t : State} {n : Nat} (hs : s.runAlone) (hn : s.cfg.tapeCells ≤ n)
    (h : step s = .next t) (ht : t.phase ≠ .runError) : step (s.withTapeCells n) = .next (t.withTapeCells n) := by
  obtain ⟨hh, hp⟩ := hs
  have hcore : step (s.withTapeCells n) = coreStep (s.withTapeCells n) := step_eq_coreStep hh
  have hnc : s.phase ≠ .compiling := fun hc => by simp [hc, Phase.atRest] at hp
  rw [hcore]
  cases stepCase_of_step_host_nil hh h with
  | execute i hr hi he =>
    rw [coreStep_of_running (s := s.withTapeCells n) hr, dispatchStep_of_instrAt (s := s.withTapeCells n) hi]
    exact exec_withTapeCells hr hn he ht
  | runEnds hr hip => rw [coreStep_of_running (s := s.withTapeCells n) hr]; exact dispatchStep_of_end hip
  | rest hrest => exact coreStep_atRest hrest
  | compile _ hc | passEnds hc | passEndsOpen hc => exact absurd hc hnc
  | startCompile _ hop | startRun hop | readStatus hop | outputByte _ hop => cases hop

/-- At rest with no operation of the host to come, any number of steps answers the same state (log 20). -/
theorem steps_atRest {s : State} (hh : s.host = []) (hrest : s.phase.atRest = true) (k : Nat) : steps k s = .next s := by
  induction k with
  | zero => rfl
  | succ k ih => rw [steps_succ, step_eq_coreStep hh, coreStep_atRest hrest, andThen_next, ih]

theorem steps_withTapeCells (k : Nat) {n : Nat} : ∀ {s t : State}, s.runAlone → s.cfg.tapeCells ≤ n →
    steps k s = .next t → t.phase ≠ .runError → steps k (s.withTapeCells n) = .next (t.withTapeCells n) := by
  induction k with
  | zero =>
    intro s t _ _ h _
    cases h
    rfl
  | succ k ih =>
    intro s t hs hn h ht
    rw [steps_succ, andThen_eq_next] at h
    obtain ⟨s', hstep, hrest⟩ := h
    have hs' : s'.runAlone := step_keeps_runAlone hs hstep
    -- a run that had entered RUN_ERROR would still be there at the end
    have herr : s'.phase ≠ .runError := fun herr => by
      rw [steps_atRest hs'.1 (by rw [herr]; rfl)] at hrest
      cases hrest
      exact ht herr
    have hn' : s'.cfg.tapeCells ≤ n := by rw [(onlyTheCompilerWritesTheProgram _ _ hstep).1]; exact hn
    rw [steps_succ, step_withTapeCells hs hn hstep herr, andThen_next]
    exact ih hs' hn' hrest ht

/-- Settles O59: step for step, what an instruction does within the tape it does on a longer one. -/
theorem longerTapeGivesTheSameRun : Obligations.LongerTapeGivesTheSameRun :=
  fun k _ _ _ hp hh hn h ht => steps_withTapeCells k ⟨hh, .inl hp⟩ hn h ht

end Sys2Proof.Machine
end

section
/-! The whole pass (40_compiler R119): what a COMPILE comes to depends on the source alone, and is READY, UnmatchedClose
or UnterminatedLoop as the source's brackets balance. -/

namespace Sys2Proof.Machine

/-! ### Operations on states with the same compile

Two states with one `compileView` differ only in what a compile does not consist of. Each operation that a compile rule
is made of takes two such states to outcomes with one view: the same stop, or two such states again. -/

section SameCompile
variable {s s' : State} (h : s.compileView = s'.compileView)
include h

theorem compileViewOf_next : compileViewOf (.next s) = compileViewOf (.next s') := congrArg Host.Outcome.next h

theorem compileViewOf_nextChar : compileViewOf (.next (nextChar s)) = compileViewOf (.next (nextChar s')) :=
  compileViewOf_next (congrArg (fun v : CompileView => { v with spos := v.spos + 1 }) h)

theorem compileViewOf_raiseError (e : CoreError) : compileViewOf (raiseError e s) = compileViewOf (raiseError e s') :=
  compileViewOf_next (congrArg (fun v : CompileView => { v with err := some e, phase := e.phase }) h)

theorem compileViewOf_emitWord (op x : Nat) : compileViewOf (emitWord s op x) = compileViewOf (emitWord s' op x) := by
  have hcfg : s.cfg = s'.cfg := congrArg CompileView.cfg h
  have hplen : s.plen = s'.plen := congrArg (fun v : CompileView => v.prog.length) h
  by_cases hroom : s.plen < s.cfg.progCap
  · rw [emitWord_of_lt hroom, emitWord_of_lt (hplen ▸ hcfg ▸ hroom)]
    exact compileViewOf_next
      (congrArg (fun v : CompileView => { v with prog := v.prog ++ [makeWord v.cfg.paw op x] }) h)
  · rw [emitWord_of_full (Nat.le_of_not_lt hroom), emitWord_of_full (Nat.le_of_not_lt (hplen ▸ hcfg ▸ hroom))]

theorem compileViewOf_pushBracket (p : Nat) : compileViewOf (pushBracket s p) = compileViewOf (pushBracket s' p) := by
  have hcfg : s.cfg = s'.cfg := congrArg CompileView.cfg h
  have hslen : s.slen = s'.slen := congrArg (fun v : CompileView => v.stk.length) h
  by_cases hroom : s.slen < s.cfg.stackDepth
  · rw [pushBracket_eq_next.mpr ⟨hroom, rfl⟩, pushBracket_eq_next.mpr ⟨hslen ▸ hcfg ▸ hroom, rfl⟩]
    exact compileViewOf_next (congrArg (fun v : CompileView => { v with stk := p :: v.stk }) h)
  · have hroom' : ¬ s'.slen < s'.cfg.stackDepth := hslen ▸ hcfg ▸ hroom
    rw [pushBracket, pushBracket, if_neg hroom, if_neg hroom', hslen]

theorem compileViewOf_backpatch (p x : Nat) : compileViewOf (backpatch s p x) = compileViewOf (backpatch s' p x) := by
  have hprog : s.prog = s'.prog := congrArg CompileView.prog h
  cases hw : s.prog[p]? with
  | some w =>
    rw [backpatch_of_getElem? hw, backpatch_of_getElem? (hprog ▸ hw)]
    exact compileViewOf_next
      (congrArg (fun v : CompileView => { v with prog := v.prog.set p (setTarget v.cfg.paw w x) }) h)
  | none => simp only [backpatch, ← hprog, hw, compileViewOf]

end SameCompile

/-- Two sequences of steps show one compile if their first parts do, and their second parts from every two states that
the first parts lead to. -/
theorem compileViewOf_andThen {r r' : Result} {k k' : State → Result} (hr : compileViewOf r = compileViewOf r')
    (hk : ∀ t t', r = .next t → r' = .next t' → t.compileView = t'.compileView →
      compileViewOf (k t) = compileViewOf (k' t')) :
    compileViewOf (andThen r k) = compileViewOf (andThen r' k') := by
  cases r <;> cases r' <;> simp only [compileViewOf, reduceCtorEq, Host.Outcome.next.injEq] at hr
  case next.next t t' => exact hk t t' rfl rfl hr
  all_goals exact hr

/-! ### Compile rules on states with the same compile -/

section CompileRules
variable {s s' : State} (h : s.compileView = s'.compileView)
include h

theorem compileViewOf_emitChar (op x : Nat) : compileViewOf (emitChar s op x) = compileViewOf (emitChar s' op x) :=
  compileViewOf_andThen (compileViewOf_emitWord h op x) fun _ _ _ _ ht => compileViewOf_nextChar ht

theorem compileViewOf_compileOpen : compileViewOf (compileOpen s) = compileViewOf (compileOpen s') := by
  have hplen : s.plen = s'.plen := congrArg (fun v : CompileView => v.prog.length) h
  rw [compileOpen, compileOpen, hplen]
  exact compileViewOf_andThen (compileViewOf_emitWord h 6 0) fun _ _ _ _ ht =>
    compileViewOf_andThen (compileViewOf_pushBracket ht _) fun _ _ _ _ hu => compileViewOf_nextChar hu

theorem compileViewOf_compileClose : compileViewOf (compileClose s) = compileViewOf (compileClose s') := by
  have hstk : s.stk = s'.stk := congrArg CompileView.stk h
  unfold compileClose
  rw [← hstk]
  cases s.stk with
  | nil => exact compileViewOf_raiseError h .unmatchedClose
  | cons p rest =>
    have hpopped : ({ s with stk := rest } : State).compileView = ({ s' with stk := rest } : State).compileView :=
      congrArg (fun v : CompileView => { v with stk := rest }) h
    refine compileViewOf_andThen (compileViewOf_emitWord hpopped 5 p) fun t t' _ _ ht => ?_
    have hplen : t.plen = t'.plen := congrArg (fun v : CompileView => v.prog.length) ht
    rw [hplen]
    exact compileViewOf_andThen (compileViewOf_backpatch ht p _) fun _ _ _ _ hu => compileViewOf_nextChar hu

/-- A compile rule reads nothing but the compile and writes nothing else that the compile shows (40_compiler R113). -/
theorem compileViewOf_exec (hp : s.phase = .compiling) (i : Instr) :
    compileViewOf (exec i s) = compileViewOf (exec i s') := by
  have hp' : s'.phase = .compiling := (congrArg CompileView.phase h).symm.trans hp
  cases hop : plainOp i with
  | some op => rw [exec_plain_eq_emitChar hop hp, exec_plain_eq_emitChar hop hp', compileViewOf_emitChar h]
  | none =>
    cases i with
    | jumpIfZero x =>
      simp only [exec, execJumpIfZero, byPhase_compiling hp, byPhase_compiling hp', compileViewOf_compileOpen h]
    | jump x => simp only [exec, execJump, byPhase_compiling hp, byPhase_compiling hp', compileViewOf_compileClose h]
    | comment c =>
      rw [exec_comment_compiling c hp, exec_comment_compiling c hp']
      exact compileViewOf_nextChar h
    | reservedWord x => rfl
    | _ => cases hop

theorem compileViewOf_endOfPass : compileViewOf (endOfPass s) = compileViewOf (endOfPass s') := by
  have hstk : s.stk = s'.stk := congrArg CompileView.stk h
  by_cases hs : s.stk = []
  · rw [endOfPass_eq_next.mpr (.inl ⟨hs, rfl⟩), endOfPass_eq_next.mpr (.inl ⟨hstk ▸ hs, rfl⟩)]
    exact compileViewOf_next (congrArg (fun v : CompileView => { v with phase := .ready }) h)
  · rw [endOfPass_eq_next.mpr (.inr ⟨hs, rfl⟩), endOfPass_eq_next.mpr (.inr ⟨hstk ▸ hs, rfl⟩)]
    exact compileViewOf_raiseError h .unterminatedLoop

theorem compileViewOf_compileStep (hp : s.phase = .compiling) :
    compileViewOf (compileStep s) = compileViewOf (compileStep s') := by
  have hsrc : s.src = s'.src := congrArg CompileView.src h
  have hspos : s.spos = s'.spos := congrArg CompileView.spos h
  unfold compileStep
  rw [← hsrc, ← hspos]
  cases s.src[s.spos]? with
  | some c => exact compileViewOf_exec h hp (decodeSource c)
  | none =>
    by_cases hend : s.spos = s.src.length
    · simp only [if_pos hend, compileViewOf_endOfPass h]
    · simp only [if_neg hend, compileViewOf]

end CompileRules

/-! ### A compile left to itself -/

/-- A state after COMPILE with no further operation of the host: COMPILING, or at rest after the pass. -/
def State.passAlone (s : State) : Prop := s.host = [] ∧ (s.phase = .compiling ∨ s.phase.atRest = true)

theorem step_keeps_passAlone {s t : State} (hs : s.passAlone) (h : step s = .next t) : t.passAlone := by
  obtain ⟨hh, hp⟩ := hs
  cases stepCase_of_step_host_nil hh h with
  | compile c hc hbyte he =>
    obtain ⟨-, -, -, -, -, -, hhost, -⟩ := exec_compiling_sameBesideCompiler hc he
    obtain ⟨hphase, -⟩ | ⟨-, -, rfl⟩ := exec_compiling_status hc he
    · exact ⟨hhost.trans hh, .inl (hphase.trans hc)⟩
    · exact ⟨hh, .inr rfl⟩
  | passEnds | passEndsOpen => exact ⟨hh, .inr rfl⟩
  | rest => exact ⟨hh, hp⟩
  | execute _ hr | runEnds hr => simp [hr, Phase.atRest] at hp
  | startCompile _ hop | startRun hop | readStatus hop | outputByte _ hop => cases hop

theorem compileViewOf_step {s s' : State} (h : s.compileView = s'.compileView) (hs : s.passAlone) (hs' : s'.passAlone) :
    compileViewOf (step s) = compileViewOf (step s') := by
  obtain ⟨hh, hp⟩ := hs
  obtain ⟨hh', -⟩ := hs'
  have hphase : s.phase = s'.phase := congrArg CompileView.phase h
  rw [step_eq_coreStep hh, step_eq_coreStep hh']
  rcases hp with hc | hrest
  · rw [coreStep_of_compiling hc, coreStep_of_compiling (hphase ▸ hc)]
    exact compileViewOf_compileStep h hc
  · rw [coreStep_atRest hrest, coreStep_atRest (hphase ▸ hrest)]
    exact compileViewOf_next h

/-- Compiles that are alike stay alike, step for step. -/
theorem compileViewOf_steps (k : Nat) : ∀ {s s' : State}, s.compileView = s'.compileView → s.passAlone → s'.passAlone →
    compileViewOf (steps k s) = compileViewOf (steps k s') := by
  induction k with
  | zero => exact fun h _ _ => compileViewOf_next h
  | succ k ih =>
    intro s s' h hs hs'
    rw [steps_succ, steps_succ]
    exact compileViewOf_andThen (compileViewOf_step h hs hs') fun t t' ht ht' hview =>
      ih hview (step_keeps_passAlone hs ht) (step_keeps_passAlone hs' ht')

/-- A COMPILE that is allowed starts a pass that is left to itself, and what it shows comes from the parameters and the
buffer alone (40_compiler R100). -/
theorem step_compile_starts_pass {s : State} {buffer : List Byte} (hh : s.host = [.compile buffer])
    (hp : s.phase.atRest = true) (hlen : buffer.length ≤ s.cfg.srcCap) :
    ∃ t, step s = .next t ∧ t.passAlone
      ∧ t.compileView =
          { cfg := s.cfg, prog := [], stk := [], src := buffer, spos := 0, phase := .compiling, err := none } :=
  ⟨_, (step_compile hh).trans (startCompile_eq_next.mpr ⟨hp, hlen, rfl⟩), ⟨rfl, .inl rfl⟩, rfl⟩

/-- Settles O58: both states refuse an oversized buffer; with any other, both show the same fresh pass, and every step
keeps them alike. -/
theorem compileDependsOnSourceAlone : Obligations.CompileDependsOnSourceAlone := by
  intro k s s' buffer hcfg hh hh' hp hp'
  by_cases hlen : buffer.length ≤ s.cfg.srcCap
  · obtain ⟨t, ht, halone, hview⟩ := step_compile_starts_pass hh hp hlen
    obtain ⟨t', ht', halone', hview'⟩ := step_compile_starts_pass hh' hp' (hcfg ▸ hlen)
    have hsame : t.compileView = t'.compileView := by rw [hview, hview', hcfg]
    rw [steps_succ, steps_succ, ht, ht', andThen_next, andThen_next]
    exact compileViewOf_steps k hsame halone halone'
  · have hover : s.cfg.srcCap < buffer.length := Nat.lt_of_not_le hlen
    rw [steps_succ, steps_succ, oversizedSourceIsRefused s buffer [] hh hp hover,
      oversizedSourceIsRefused s' buffer [] hh' hp' (hcfg ▸ hover)]

end Sys2Proof.Machine
end

section
/-! How a pass ends (40_compiler R114, R116, R119, 60_exceptions R204): the bracket stack is as deep as the `[` read exceed
the `]` read, so the source's brackets decide. -/

namespace Sys2Proof.Machine

/-! ### The brackets of a source -/

theorem count_take_succ {src : List Byte} {n : Nat} {c : Byte} (h : src[n]? = some c) (b : Byte) :
    (src.take (n + 1)).count b = (src.take n).count b + if c = b then 1 else 0 := by
  rw [take_succ_of_getElem? h, List.count_append, List.count_singleton]
  simp only [beq_iff_eq]

/-- Among the first `n` bytes no `]` is stray. -/
def noStrayCloseBy (n : Nat) (buffer : List Byte) : Prop :=
  ∀ k ≤ n, (buffer.take k).count 0x5D#8 ≤ (buffer.take k).count 0x5B#8

theorem noStrayCloseBy_succ {n : Nat} {buffer : List Byte} (h : noStrayCloseBy n buffer)
    (hlast : (buffer.take (n + 1)).count 0x5D#8 ≤ (buffer.take (n + 1)).count 0x5B#8) :
    noStrayCloseBy (n + 1) buffer := by
  intro k hk
  obtain rfl | hlt := hk.eq_or_lt
  · exact hlast
  · exact h k (Nat.le_of_lt_succ hlt)

theorem noStrayClose_of_noStrayCloseBy_length {buffer : List Byte} (h : noStrayCloseBy buffer.length buffer) :
    noStrayClose buffer := by
  intro k
  obtain hk | hk := Nat.le_total k buffer.length
  · exact h k hk
  · have hall := h buffer.length le_rfl
    rw [List.take_length] at hall
    rwa [List.take_of_length_le hk]

/-! ### Where a pass can be -/

/-- A good pass over `buffer`, with no operation of the host to come: so far no `]` was stray, and the open brackets are
the `[` that no `]` has closed. -/
structure State.Reads (s : State) (buffer : List Byte) : Prop where
  inv : s.Inv
  hostNil : s.host = []
  compiling : s.phase = .compiling
  srcEq : s.src = buffer
  noStray : noStrayCloseBy s.spos buffer
  depth : s.slen + (buffer.take s.spos).count 0x5D#8 = (buffer.take s.spos).count 0x5B#8

/-- What the source decides about the state that a pass ends in. -/
def endsAsBracketsBalance (buffer : List Byte) (t : State) : Prop :=
  (balanced buffer → t.phase = .ready ∧ t.err = none ∧ t.plen = buffer.countP isCommand
      ∧ wellFormedWords t.cfg.paw t.prog = true
      ∧ ∃ is, decodeProgram t.cfg.paw t.prog = some is
          ∧ is.map Instr.sourceForm = (buffer.filter isCommand).map decodeSource)
    ∧ (¬ noStrayClose buffer → t.phase = .compileError ∧ t.err = some .unmatchedClose)
    ∧ (noStrayClose buffer → ¬ balanced buffer → t.phase = .compileError ∧ t.err = some .unterminatedLoop)

/-! ### A character step -/

/-- The Program has one word per command character read (40_compiler R110). -/
theorem State.Inv.plen_eq {s : State} (h : s.Inv) : s.plen = (s.src.take s.spos).countP isCommand := by
  obtain ⟨is, hd, hsrc, -⟩ := h.program
  have hlen := congrArg List.length hsrc
  rw [List.length_map, List.length_map, ← List.countP_eq_length_filter, decodeProgram_length hd] at hlen
  exact hlen

/-- A command character yet to be read is one that the Program memory has room for. -/
theorem State.Reads.room {s : State} {buffer : List Byte} {c : Byte} (h : s.Reads buffer)
    (hcap : buffer.countP isCommand ≤ s.cfg.progCap) (hc : buffer[s.spos]? = some c) (hcmd : isCommand c = true) :
    s.plen < s.cfg.progCap := by
  have hmore : (buffer.take (s.spos + 1)).countP isCommand = s.plen + 1 := by
    rw [take_succ_of_getElem? hc, List.countP_append, List.countP_singleton, if_pos hcmd, h.inv.plen_eq, h.srcEq]
  have hle : (buffer.take (s.spos + 1)).countP isCommand ≤ buffer.countP isCommand :=
    (List.take_sublist _ _).countP_le
  omega

theorem exec_decodeSource_answers {s : State} {c : Byte} (h : s.Inv) (hp : s.phase = .compiling)
    (hroom : isCommand c = true → s.plen < s.cfg.progCap) : ∃ t, exec (decodeSource c) s = .next t := by
  by_cases hc : c ∈ commandBytes
  · exact exec_compiling_answers h hp (hroom (List.contains_iff_mem.mpr hc)) (decodeSource_mem_sourceInstrs c hc)
  · rw [decodeSource_of_not_command hc]
    exact ⟨_, exec_comment_compiling c hp⟩

/-- A character step that goes on reads one byte, and makes the stack one deeper at `[` and one less deep at `]`. -/
theorem exec_compiling_depth {s t : State} {c : Byte} (hp : s.phase = .compiling) (he : exec (decodeSource c) s = .next t)
    (ht : t.phase = .compiling) :
    t.spos = s.spos + 1 ∧ t.slen + (if c = 0x5D#8 then 1 else 0) = s.slen + if c = 0x5B#8 then 1 else 0 := by
  have hneither : (∀ x, decodeSource c ≠ .jumpIfZero x) → (∀ x, decodeSource c ≠ .jump x) →
      c ≠ 0x5D#8 ∧ c ≠ 0x5B#8 := fun hopen hclose =>
    ⟨fun h => hclose 0 (h ▸ decodeSource_close), fun h => hopen 0 (h ▸ decodeSource_open)⟩
  rcases exec_compiling_cases hp he with ⟨op, hop, -, rfl⟩ | ⟨x, hx, -, -, rfl⟩ | ⟨x, -, -, rfl⟩ |
    ⟨x, p, rest, v, hx, hs, -, -, rfl⟩ | ⟨b, hb, rfl⟩
  · obtain ⟨hclose, hopen⟩ := hneither (fun x hx => by rw [hx] at hop; cases hop) (fun x hx => by rw [hx] at hop; cases hop)
    rw [if_neg hclose, if_neg hopen]
    exact ⟨rfl, rfl⟩
  · obtain rfl := eq_open_of_decodeSource hx
    exact ⟨rfl, rfl⟩
  · cases ht
  · obtain rfl := eq_close_of_decodeSource hx
    exact ⟨rfl, (congrArg List.length hs).symm⟩
  · obtain ⟨hclose, hopen⟩ := hneither (fun x hx => by rw [hx] at hb; cases hb) (fun x hx => by rw [hx] at hb; cases hb)
    rw [if_neg hclose, if_neg hopen]
    exact ⟨rfl, rfl⟩

/-- A character step that the Program memory has room for goes on, or meets a stray `]`. -/
theorem State.Reads.next {s : State} {buffer : List Byte} {c : Byte} (h : s.Reads buffer)
    (hcap : buffer.countP isCommand ≤ s.cfg.progCap) (hc : buffer[s.spos]? = some c) :
    (∃ t, step s = .next t ∧ t.Reads buffer ∧ t.spos = s.spos + 1)
      ∨ ¬ noStrayClose buffer
        ∧ ∃ t, step s = .next t ∧ t.host = [] ∧ t.phase = .compileError ∧ t.err = some .unmatchedClose := by
  have hbyte : s.src[s.spos]? = some c := by rw [h.srcEq]; exact hc
  obtain ⟨t, he⟩ := exec_decodeSource_answers h.inv h.compiling (h.room hcap hc)
  have hstep : step s = .next t := (step_eq_exec_decodeSource h.hostNil h.compiling hbyte).trans he
  have hdepth := h.depth
  have hcount := count_take_succ hc
  obtain ⟨hphase, -⟩ | ⟨⟨x, hx⟩, hs, rfl⟩ := exec_compiling_status h.compiling he
  · have hcompiling : t.phase = .compiling := hphase.trans h.compiling
    obtain ⟨-, -, -, -, -, hsrc, hhost, -⟩ := exec_compiling_sameBesideCompiler h.compiling he
    obtain ⟨hspos, hslen⟩ := exec_compiling_depth h.compiling he hcompiling
    have hdepth' : t.slen + (buffer.take t.spos).count 0x5D#8 = (buffer.take t.spos).count 0x5B#8 := by
      rw [hspos, hcount, hcount]
      omega
    refine .inl ⟨t, hstep, ⟨everyStepKeepsTheInvariant s t h.inv hstep, hhost.trans h.hostNil, hcompiling,
      hsrc.trans h.srcEq, ?_, hdepth'⟩, hspos⟩
    rw [hspos] at hdepth' ⊢
    exact noStrayCloseBy_succ h.noStray (hdepth' ▸ Nat.le_add_left ..)
  · refine .inr ⟨fun hall => ?_, _, hstep, h.hostNil, rfl, rfl⟩
    obtain rfl := eq_close_of_decodeSource hx
    have hlast := hall (s.spos + 1)
    have hempty : s.slen = 0 := congrArg List.length hs
    rw [hcount, hcount, if_pos rfl, if_neg (by decide)] at hlast
    omega

/-! ### The end of the pass -/

theorem endsAsBracketsBalance_of_stray {buffer : List Byte} {t : State} (hstray : ¬ noStrayClose buffer)
    (hp : t.phase = .compileError) (herr : t.err = some .unmatchedClose) : endsAsBracketsBalance buffer t :=
  ⟨fun hb => absurd hb.1 hstray, fun _ => ⟨hp, herr⟩, fun hall => absurd hall hstray⟩

theorem endsAsBracketsBalance_of_unclosed {buffer : List Byte} {t : State} (hall : noStrayClose buffer)
    (hopen : ¬ balanced buffer) (hp : t.phase = .compileError) (herr : t.err = some .unterminatedLoop) :
    endsAsBracketsBalance buffer t :=
  ⟨fun hb => absurd hb hopen, fun hstray => absurd hall hstray, fun _ _ => ⟨hp, herr⟩⟩

/-- In a good READY state, the Program is the well-formed one that the whole source compiles to (40_compiler R114). -/
theorem endsAsBracketsBalance_of_ready {t : State} (h : t.Inv) (hp : t.phase = .ready) (hb : balanced t.src) :
    endsAsBracketsBalance t.src t := by
  obtain ⟨is, hd, hsrc, -, hready⟩ := h.program
  obtain ⟨-, -, hend⟩ := hready (by rw [hp]; rfl)
  have herr := h.errMatches
  rw [hp] at herr
  have hplen := h.plen_eq
  rw [hend, List.take_length] at hsrc hplen
  exact ⟨fun _ => ⟨hp, of_decide_eq_true herr, hplen, h.wellFormed (by rw [hp]; rfl), is, hd, hsrc⟩,
    fun hstray => absurd hb.1 hstray, fun _ hopen => absurd hb hopen⟩

/-- The end-of-pass step ends the pass as the brackets balance. -/
theorem State.Reads.ends {s : State} {buffer : List Byte} (h : s.Reads buffer) (hn : s.spos = buffer.length) :
    ∃ t, step s = .next t ∧ endsAsBracketsBalance buffer t := by
  have hsrc := h.srcEq
  subst hsrc
  have hall : noStrayClose s.src := noStrayClose_of_noStrayCloseBy_length (hn ▸ h.noStray)
  have hdepth := h.depth
  rw [hn, List.take_length] at hdepth
  obtain ⟨hclosed, hopen⟩ := endOfPassChecksOpenBrackets s h.hostNil h.compiling hn
  by_cases hs : s.stk = []
  · have hempty : s.slen = 0 := congrArg List.length hs
    have hbalanced : balanced s.src := ⟨hall, by omega⟩
    have hinv := everyStepKeepsTheInvariant s _ h.inv (hclosed hs)
    exact ⟨_, hclosed hs, endsAsBracketsBalance_of_ready hinv rfl hbalanced⟩
  · have hsome : 0 < s.slen := List.length_pos_of_ne_nil hs
    refine ⟨_, hopen hs, endsAsBracketsBalance_of_unclosed hall (fun hb => ?_) rfl rfl⟩
    have := hb.2
    omega

/-- From any point of a pass, one step for each of the `m` source bytes still to be read and one more end it as the
brackets balance. -/
theorem State.Reads.steps {buffer : List Byte} (m : Nat) : ∀ {s : State}, s.Reads buffer →
    buffer.countP isCommand ≤ s.cfg.progCap → s.spos + m = buffer.length →
      ∃ t, steps (m + 1) s = .next t ∧ endsAsBracketsBalance buffer t := by
  induction m with
  | zero =>
    intro s h _ hm
    obtain ⟨t, hstep, hends⟩ := h.ends hm
    exact ⟨t, by rw [steps_succ, hstep, andThen_next, steps_zero], hends⟩
  | succ m ih =>
    intro s h hcap hm
    have hlt : s.spos < buffer.length := by omega
    rcases h.next hcap (List.getElem?_eq_getElem hlt) with ⟨s', hstep, h', hspos⟩ | ⟨hstray, s', hstep, hh, hp, herr⟩
    · obtain ⟨hcfg, -⟩ := onlyTheCompilerWritesTheProgram s s' hstep
      obtain ⟨t, hsteps, hends⟩ := ih h' (hcfg ▸ hcap) (by omega)
      exact ⟨t, by rw [steps_succ, hstep, andThen_next, hsteps], hends⟩
    · refine ⟨s', ?_, endsAsBracketsBalance_of_stray hstray hp herr⟩
      rw [steps_succ, hstep, andThen_next, steps_atRest hh (by rw [hp]; rfl)]

/-- A COMPILE in a good state at rest starts a good pass at the first byte. -/
theorem step_compile_reads {s : State} {buffer : List Byte} (h : s.Inv) (hh : s.host = [.compile buffer])
    (hp : s.phase.atRest = true) (hlen : buffer.length ≤ s.cfg.srcCap) :
    ∃ t, step s = .next t ∧ t.Reads buffer ∧ t.cfg = s.cfg ∧ t.spos = 0 := by
  obtain ⟨t, hstep, hsrc, hspos, -, hslen, hphase, -, -, -, -, -, hcfg, hhost⟩ :=
    compileCommandStartsThePass s buffer [] hh hp hlen
  refine ⟨t, hstep, ⟨everyStepKeepsTheInvariant s t h hstep, hhost, hphase, hsrc, ?_, ?_⟩, hcfg, hspos⟩
  · rw [hspos]
    intro k hk
    rw [Nat.le_zero.mp hk]
    exact le_rfl
  · rw [hspos, hslen]; rfl

/-- Settles O51, by induction on the source bytes still to be read: COMPILE starts the pass, each byte is one step, and
the end-of-pass step or a stray `]` ends it. -/
theorem compileEndsAsBracketsBalance : Obligations.CompileEndsAsBracketsBalance := by
  intro s buffer h hh hp hlen hcap
  obtain ⟨s', hstep, hreads, hcfg, hspos⟩ := step_compile_reads h hh hp hlen
  obtain ⟨t, hsteps, hends⟩ := hreads.steps buffer.length (hcfg ▸ hcap) (by omega)
  exact ⟨t, by rw [steps_succ, hstep, andThen_next, hsteps], hends⟩

end Sys2Proof.Machine
end
